-- ==== Sys2Proof/Word.lean ====
section
/-! DEFINITION. The word types of the core (00_scope.md R6, R8; 30_encoding.md R49). -/

namespace Sys2Proof

/-- An 8-bit register or memory cell (R13, R34). -/
abbrev Byte := BitVec 8

/-- A 16-bit instruction word, pc, I or stack slot (R48, R15, R16, R17). -/
abbrev Word := BitVec 16

/-- The 4-bit field `x` or `y` that names one of the registers V0..VF (R49). -/
abbrev RegIx := BitVec 4

/-- The 12-bit field `nnn` (R49). -/
abbrev Addr12 := BitVec 12

end Sys2Proof
end

