-- ==== Sys2Proof/Syntax.lean ====
section
/-! DEFINITION. The instructions: one constructor for each row of spec/opcode_table.json
(30_encoding.md R54), the fallback row included (R55). -/

namespace Sys2Proof

/-- An instruction with its operand fields, named after the pattern of R54 and the table's mnemonic. -/
inductive Instr where
  | cls                                       -- 00E0  CLS
  | ret                                       -- 00EE  RET
  | sys (nnn : Addr12)                        -- 0nnn  SYS nnn
  | jp (nnn : Addr12)                         -- 1nnn  JP nnn
  | call (nnn : Addr12)                       -- 2nnn  CALL nnn
  | seVxKk (x : RegIx) (kk : Byte)            -- 3xkk  SE Vx, kk
  | sneVxKk (x : RegIx) (kk : Byte)           -- 4xkk  SNE Vx, kk
  | seVxVy (x y : RegIx)                      -- 5xy0  SE Vx, Vy
  | ldVxKk (x : RegIx) (kk : Byte)            -- 6xkk  LD Vx, kk
  | addVxKk (x : RegIx) (kk : Byte)           -- 7xkk  ADD Vx, kk
  | ldVxVy (x y : RegIx)                      -- 8xy0  LD Vx, Vy
  | orVxVy (x y : RegIx)                      -- 8xy1  OR Vx, Vy
  | andVxVy (x y : RegIx)                     -- 8xy2  AND Vx, Vy
  | xorVxVy (x y : RegIx)                     -- 8xy3  XOR Vx, Vy
  | addVxVy (x y : RegIx)                     -- 8xy4  ADD Vx, Vy
  | subVxVy (x y : RegIx)                     -- 8xy5  SUB Vx, Vy
  | shrVxVy (x y : RegIx)                     -- 8xy6  SHR Vx, Vy
  | subnVxVy (x y : RegIx)                    -- 8xy7  SUBN Vx, Vy
  | shlVxVy (x y : RegIx)                     -- 8xyE  SHL Vx, Vy
  | sneVxVy (x y : RegIx)                     -- 9xy0  SNE Vx, Vy
  | ldI (nnn : Addr12)                        -- Annn  LD I, nnn
  | jpV0 (nnn : Addr12)                       -- Bnnn  JP V0, nnn
  | rnd (x : RegIx) (kk : Byte)               -- Cxkk  RND Vx, kk
  | drw (x y : RegIx) (n : BitVec 4)          -- Dxyn  DRW Vx, Vy, n
  | skp (x : RegIx)                           -- Ex9E  SKP Vx
  | sknp (x : RegIx)                          -- ExA1  SKNP Vx
  | ldVxDt (x : RegIx)                        -- Fx07  LD Vx, DT
  | ldVxK (x : RegIx)                         -- Fx0A  LD Vx, K
  | ldDtVx (x : RegIx)                        -- Fx15  LD DT, Vx
  | ldStVx (x : RegIx)                        -- Fx18  LD ST, Vx
  | addIVx (x : RegIx)                        -- Fx1E  ADD I, Vx
  | ldFVx (x : RegIx)                         -- Fx29  LD F, Vx
  | ldBVx (x : RegIx)                         -- Fx33  LD B, Vx
  | ldMemVx (x : RegIx)                       -- Fx55  LD [I], Vx
  | ldVxMem (x : RegIx)                       -- Fx65  LD Vx, [I]
  | unrecognised (w : Word)                   -- any other word
deriving DecidableEq, Repr

end Sys2Proof
end

