-- ==== Sys2Proof/WellFormed.lean ====
section
/-! DEFINITION. Which instruction terms stand for a word. Operand fields fit by their types; two
constructors need a check: SYS shares its nibble with CLS and RET (30_encoding.md R53, R58), and the
fallback takes only the words no pattern matches (R55). -/

namespace Sys2Proof

/-- The words R55 lists as unrecognised, by nibbles N1, N4 and byte kk. -/
def unrecognisedWord (w : Word) : Bool :=
  let n1 := w.extractLsb' 12 4
  let n4 := w.extractLsb' 0 4
  let kk := w.extractLsb' 0 8
  (n1 == 0x5 && n4 != 0x0)
    || (n1 == 0x8 && (n4 == 0x8 || n4 == 0x9 || n4 == 0xA || n4 == 0xB || n4 == 0xC || n4 == 0xD || n4 == 0xF))
    || (n1 == 0x9 && n4 != 0x0)
    || (n1 == 0xE && !(kk == 0x9E || kk == 0xA1))
    || (n1 == 0xF && !(kk == 0x07 || kk == 0x0A || kk == 0x15 || kk == 0x18 || kk == 0x1E
          || kk == 0x29 || kk == 0x33 || kk == 0x55 || kk == 0x65))

/-- "`SYS 0x0E0` and `SYS 0x0EE` are not valid, because those words are CLS and RET" (R58). -/
def Instr.wellFormed : Instr → Bool
  | .sys nnn => nnn != 0x0E0 && nnn != 0x0EE
  | .unrecognised w => unrecognisedWord w
  | .cls | .ret | .jp _ | .call _ | .seVxKk _ _ | .sneVxKk _ _ | .seVxVy _ _ | .ldVxKk _ _
  | .addVxKk _ _ | .ldVxVy _ _ | .orVxVy _ _ | .andVxVy _ _ | .xorVxVy _ _ | .addVxVy _ _
  | .subVxVy _ _ | .shrVxVy _ _ | .subnVxVy _ _ | .shlVxVy _ _ | .sneVxVy _ _ | .ldI _ | .jpV0 _
  | .rnd _ _ | .drw _ _ _ | .skp _ | .sknp _ | .ldVxDt _ | .ldVxK _ | .ldDtVx _ | .ldStVx _
  | .addIVx _ | .ldFVx _ | .ldBVx _ | .ldMemVx _ | .ldVxMem _ => true

end Sys2Proof
end

