-- ==== Sys2Proof/Decode.lean ====
section
/-! DEFINITION. The decoder and dispatcher of 30_encoding.md (R48 to R57), the opcode map of R54 as
data, and the encoder. -/

namespace Sys2Proof

/-- The field tuple of R49, R50. -/
structure Fields where
  n1  : BitVec 4
  n2  : BitVec 4
  n3  : BitVec 4
  n4  : BitVec 4
  nnn : Addr12
  x   : RegIx
  y   : RegIx
  kk  : Byte
  n   : BitVec 4
deriving DecidableEq, Repr

/-- `decode(w)` of R50: total, pure, and the same for every word. -/
def decodeFields (w : Word) : Fields :=
  { n1  := w.extractLsb' 12 4
    n2  := w.extractLsb' 8 4
    n3  := w.extractLsb' 4 4
    n4  := w.extractLsb' 0 4
    nnn := w.extractLsb' 0 12
    x   := w.extractLsb' 8 4
    y   := w.extractLsb' 4 4
    kk  := w.extractLsb' 0 8
    n   := w.extractLsb' 0 4 }

/-- The 0-group, most specific first: 00E0, 00EE, then 0nnn (R53). -/
def dispatch0 (w : Word) (d : Fields) : Instr :=
  if w = 0x00E0 then .cls
  else if w = 0x00EE then .ret
  else .sys d.nnn

/-- The 8xyN patterns by N4; the other values of N4 are unrecognised (R54, R55). -/
def dispatch8 (w : Word) (d : Fields) : Instr :=
  if d.n4 = 0x0 then .ldVxVy d.x d.y
  else if d.n4 = 0x1 then .orVxVy d.x d.y
  else if d.n4 = 0x2 then .andVxVy d.x d.y
  else if d.n4 = 0x3 then .xorVxVy d.x d.y
  else if d.n4 = 0x4 then .addVxVy d.x d.y
  else if d.n4 = 0x5 then .subVxVy d.x d.y
  else if d.n4 = 0x6 then .shrVxVy d.x d.y
  else if d.n4 = 0x7 then .subnVxVy d.x d.y
  else if d.n4 = 0xE then .shlVxVy d.x d.y
  else .unrecognised w

/-- The Exkk patterns by kk (R54, R55). -/
def dispatchE (w : Word) (d : Fields) : Instr :=
  if d.kk = 0x9E then .skp d.x
  else if d.kk = 0xA1 then .sknp d.x
  else .unrecognised w

/-- The Fxkk patterns by kk (R54, R55). -/
def dispatchF (w : Word) (d : Fields) : Instr :=
  if d.kk = 0x07 then .ldVxDt d.x
  else if d.kk = 0x0A then .ldVxK d.x
  else if d.kk = 0x15 then .ldDtVx d.x
  else if d.kk = 0x18 then .ldStVx d.x
  else if d.kk = 0x1E then .addIVx d.x
  else if d.kk = 0x29 then .ldFVx d.x
  else if d.kk = 0x33 then .ldBVx d.x
  else if d.kk = 0x55 then .ldMemVx d.x
  else if d.kk = 0x65 then .ldVxMem d.x
  else .unrecognised w

/-- The dispatcher (R53): the handler a decoded word selects. -/
def dispatch (w : Word) (d : Fields) : Instr :=
  if d.n1 = 0x0 then dispatch0 w d
  else if d.n1 = 0x1 then .jp d.nnn
  else if d.n1 = 0x2 then .call d.nnn
  else if d.n1 = 0x3 then .seVxKk d.x d.kk
  else if d.n1 = 0x4 then .sneVxKk d.x d.kk
  else if d.n1 = 0x5 then (if d.n4 = 0x0 then .seVxVy d.x d.y else .unrecognised w)
  else if d.n1 = 0x6 then .ldVxKk d.x d.kk
  else if d.n1 = 0x7 then .addVxKk d.x d.kk
  else if d.n1 = 0x8 then dispatch8 w d
  else if d.n1 = 0x9 then (if d.n4 = 0x0 then .sneVxVy d.x d.y else .unrecognised w)
  else if d.n1 = 0xA then .ldI d.nnn
  else if d.n1 = 0xB then .jpV0 d.nnn
  else if d.n1 = 0xC then .rnd d.x d.kk
  else if d.n1 = 0xD then .drw d.x d.y d.n
  else if d.n1 = 0xE then dispatchE w d
  else dispatchF w d

/-- Decode and dispatch one word: never fails (R50, R53). -/
def decodeWord (w : Word) : Instr := dispatch w (decodeFields w)

/-- The big-endian word of two bytes, the one at the lower address first (20_memory.md R37). -/
def wordOfBytes (hi lo : Byte) : Word := hi ++ lo

/-- The two bytes of a word as they stand in memory, lower address first (R37, R38). -/
def bytesOfWord (w : Word) : Byte × Byte := (w.extractLsb' 8 8, w.extractLsb' 0 8)

/-- Why a byte string holds no instruction: every word decodes, so only its end can be missing. -/
inductive DecodeError where
  | truncated
deriving DecidableEq, Repr

/-- The first instruction of a byte string and the bytes after it. Every instruction is two bytes
(R48, R57). -/
def decode : List Byte → Except DecodeError (Instr × List Byte)
  | hi :: lo :: rest => .ok (decodeWord (wordOfBytes hi lo), rest)
  | [_] => .error .truncated
  | [] => .error .truncated

/-- The instruction of an opcode-table word `w` of `nbits` bits: its one 16-bit word, laid out
big-endian and decoded. -/
def decodeTableWord (nbits w : Nat) : Option Instr :=
  let b := bytesOfWord (BitVec.ofNat 16 (w % 2 ^ nbits))
  match decode [b.1, b.2] with
  | .ok (i, _) => some i
  | .error _ => none

/-! ### The encoder -/

/-- The word of an instruction, from the encodings of R54. -/
def encodeWord : Instr → Word
  | .cls => 0x00E0
  | .ret => 0x00EE
  | .sys nnn => 0x0#4 ++ nnn
  | .jp nnn => 0x1#4 ++ nnn
  | .call nnn => 0x2#4 ++ nnn
  | .seVxKk x kk => 0x3#4 ++ x ++ kk
  | .sneVxKk x kk => 0x4#4 ++ x ++ kk
  | .seVxVy x y => 0x5#4 ++ x ++ y ++ 0x0#4
  | .ldVxKk x kk => 0x6#4 ++ x ++ kk
  | .addVxKk x kk => 0x7#4 ++ x ++ kk
  | .ldVxVy x y => 0x8#4 ++ x ++ y ++ 0x0#4
  | .orVxVy x y => 0x8#4 ++ x ++ y ++ 0x1#4
  | .andVxVy x y => 0x8#4 ++ x ++ y ++ 0x2#4
  | .xorVxVy x y => 0x8#4 ++ x ++ y ++ 0x3#4
  | .addVxVy x y => 0x8#4 ++ x ++ y ++ 0x4#4
  | .subVxVy x y => 0x8#4 ++ x ++ y ++ 0x5#4
  | .shrVxVy x y => 0x8#4 ++ x ++ y ++ 0x6#4
  | .subnVxVy x y => 0x8#4 ++ x ++ y ++ 0x7#4
  | .shlVxVy x y => 0x8#4 ++ x ++ y ++ 0xE#4
  | .sneVxVy x y => 0x9#4 ++ x ++ y ++ 0x0#4
  | .ldI nnn => 0xA#4 ++ nnn
  | .jpV0 nnn => 0xB#4 ++ nnn
  | .rnd x kk => 0xC#4 ++ x ++ kk
  | .drw x y n => 0xD#4 ++ x ++ y ++ n
  | .skp x => 0xE#4 ++ x ++ 0x9E#8
  | .sknp x => 0xE#4 ++ x ++ 0xA1#8
  | .ldVxDt x => 0xF#4 ++ x ++ 0x07#8
  | .ldVxK x => 0xF#4 ++ x ++ 0x0A#8
  | .ldDtVx x => 0xF#4 ++ x ++ 0x15#8
  | .ldStVx x => 0xF#4 ++ x ++ 0x18#8
  | .addIVx x => 0xF#4 ++ x ++ 0x1E#8
  | .ldFVx x => 0xF#4 ++ x ++ 0x29#8
  | .ldBVx x => 0xF#4 ++ x ++ 0x33#8
  | .ldMemVx x => 0xF#4 ++ x ++ 0x55#8
  | .ldVxMem x => 0xF#4 ++ x ++ 0x65#8
  | .unrecognised w => w

/-- The bytes of an instruction, lower address first. -/
def encode (i : Instr) : List Byte :=
  let b := bytesOfWord (encodeWord i)
  [b.1, b.2]

/-! ### The opcode map as data -/

/-- A row of R54: a word `w` fits it when `w & mask = value`. -/
structure OpcodeRow where
  pattern : String
  mask    : Word
  value   : Word
deriving DecidableEq, Repr

/-- The row of R54 that an instruction's constructor stands for. -/
def Instr.row : Instr → OpcodeRow
  | .cls => ⟨"00E0", 0xFFFF, 0x00E0⟩
  | .ret => ⟨"00EE", 0xFFFF, 0x00EE⟩
  | .sys _ => ⟨"0nnn", 0xF000, 0x0000⟩
  | .jp _ => ⟨"1nnn", 0xF000, 0x1000⟩
  | .call _ => ⟨"2nnn", 0xF000, 0x2000⟩
  | .seVxKk _ _ => ⟨"3xkk", 0xF000, 0x3000⟩
  | .sneVxKk _ _ => ⟨"4xkk", 0xF000, 0x4000⟩
  | .seVxVy _ _ => ⟨"5xy0", 0xF00F, 0x5000⟩
  | .ldVxKk _ _ => ⟨"6xkk", 0xF000, 0x6000⟩
  | .addVxKk _ _ => ⟨"7xkk", 0xF000, 0x7000⟩
  | .ldVxVy _ _ => ⟨"8xy0", 0xF00F, 0x8000⟩
  | .orVxVy _ _ => ⟨"8xy1", 0xF00F, 0x8001⟩
  | .andVxVy _ _ => ⟨"8xy2", 0xF00F, 0x8002⟩
  | .xorVxVy _ _ => ⟨"8xy3", 0xF00F, 0x8003⟩
  | .addVxVy _ _ => ⟨"8xy4", 0xF00F, 0x8004⟩
  | .subVxVy _ _ => ⟨"8xy5", 0xF00F, 0x8005⟩
  | .shrVxVy _ _ => ⟨"8xy6", 0xF00F, 0x8006⟩
  | .subnVxVy _ _ => ⟨"8xy7", 0xF00F, 0x8007⟩
  | .shlVxVy _ _ => ⟨"8xyE", 0xF00F, 0x800E⟩
  | .sneVxVy _ _ => ⟨"9xy0", 0xF00F, 0x9000⟩
  | .ldI _ => ⟨"Annn", 0xF000, 0xA000⟩
  | .jpV0 _ => ⟨"Bnnn", 0xF000, 0xB000⟩
  | .rnd _ _ => ⟨"Cxkk", 0xF000, 0xC000⟩
  | .drw _ _ _ => ⟨"Dxyn", 0xF000, 0xD000⟩
  | .skp _ => ⟨"Ex9E", 0xF0FF, 0xE09E⟩
  | .sknp _ => ⟨"ExA1", 0xF0FF, 0xE0A1⟩
  | .ldVxDt _ => ⟨"Fx07", 0xF0FF, 0xF007⟩
  | .ldVxK _ => ⟨"Fx0A", 0xF0FF, 0xF00A⟩
  | .ldDtVx _ => ⟨"Fx15", 0xF0FF, 0xF015⟩
  | .ldStVx _ => ⟨"Fx18", 0xF0FF, 0xF018⟩
  | .addIVx _ => ⟨"Fx1E", 0xF0FF, 0xF01E⟩
  | .ldFVx _ => ⟨"Fx29", 0xF0FF, 0xF029⟩
  | .ldBVx _ => ⟨"Fx33", 0xF0FF, 0xF033⟩
  | .ldMemVx _ => ⟨"Fx55", 0xF0FF, 0xF055⟩
  | .ldVxMem _ => ⟨"Fx65", 0xF0FF, 0xF065⟩
  | .unrecognised _ => ⟨"(fallback)", 0x0000, 0x0000⟩

/-- One instruction of each row of the 0-group, most specific first (R53). -/
def rowSamples0 : List Instr := [.cls, .ret, .sys 0]

/-- One instruction of each of the 32 disjoint patterns (R53), in the order of R54. -/
def rowSamples1to7 : List Instr :=
  [.jp 0, .call 0, .seVxKk 0 0, .sneVxKk 0 0, .seVxVy 0 0, .ldVxKk 0 0, .addVxKk 0 0]

def rowSamples8 : List Instr :=
  [.ldVxVy 0 0, .orVxVy 0 0, .andVxVy 0 0, .xorVxVy 0 0, .addVxVy 0 0, .subVxVy 0 0, .shrVxVy 0 0,
    .subnVxVy 0 0, .shlVxVy 0 0]

def rowSamples9toE : List Instr := [.sneVxVy 0 0, .ldI 0, .jpV0 0, .rnd 0 0, .drw 0 0 0, .skp 0, .sknp 0]

def rowSamplesF : List Instr :=
  [.ldVxDt 0, .ldVxK 0, .ldDtVx 0, .ldStVx 0, .addIVx 0, .ldFVx 0, .ldBVx 0, .ldMemVx 0, .ldVxMem 0]

/-- One instruction of each row in the dispatch order of R53, the fallback last. -/
def rowSamples : List Instr :=
  (((rowSamples0 ++ rowSamples1to7) ++ rowSamples8) ++ rowSamples9toE) ++ (rowSamplesF ++ [Instr.unrecognised 0])

/-- The opcode map in dispatch order. -/
def opcodeRows : List OpcodeRow := rowSamples.map Instr.row

/-- "A word w selects the row when (w & mask) = match" (R54). -/
def OpcodeRow.fits (r : OpcodeRow) (w : Word) : Bool := w &&& r.mask == r.value

/-- The first row of the dispatch order that a word fits (R53, R54). -/
def selectRow (w : Word) : Option OpcodeRow := opcodeRows.find? fun r => r.fits w

end Sys2Proof
end

