-- ==== Sys2Proof/Config.lean ====
section
/-! DEFINITION. What one machine fixes: its sizes (00_scope.md R6), its open parameters (R7), and the
free value RAND8 (10_state.md R25). -/

namespace Sys2Proof

/-- `P_CLS` (R7, D1): whether 00E0 clears the framebuffer. -/
inductive ClsMode where
  | clear
  | noop
deriving DecidableEq, Repr

/-- `P_VF_ALIAS` (R7, R70, D2): what a VF-alias case does. -/
inductive VfAliasMode where
  | sequential
  | refuse
deriving DecidableEq, Repr

/-- `P_I_OVERFLOW` (R7, R85, D3): what Fx1E does when I + Vx exceeds 0xFFFF. -/
inductive IOverflowMode where
  | fault
  | wrap
deriving DecidableEq, Repr

/-- The parameters of R7 that a step reads. `P_FONT` and `P_INIT` are initial values and stand in the
launch record of Machine/Interface.lean. -/
structure Params where
  cls       : ClsMode
  vfAlias   : VfAliasMode
  iOverflow : IOverflowMode
deriving DecidableEq, Repr

/-- The defaults of R7 (and of CLEAN_LAUNCH, R118). DESIGN CHOICE, log 1. -/
def Params.default : Params :=
  { cls := .clear, vfAlias := .sequential, iOverflow := .fault }

/-- "4096 addressable bytes" (R6, R34). -/
def Config.memSize : Nat := 4096

/-- The program load address and initial pc (R6, R116). -/
def Config.programStart : Nat := 0x200

/-- FREE VALUE (R25, D14; log 6): the RAND8 bytes of the steps for which the host has lined up no
input, one for each index. It has no body, so nothing can be proved of any of its values. -/
opaque Config.freeRand8 : Nat → Byte

end Sys2Proof
end

