-- ==== Sys2Proof/Machine/State.lean ====
section
/-! DEFINITION. The machine state (10_state.md R13 to R26), its faults (60_exceptions.md R101), its
refusals (R104), and the state after reset (70_reset_and_hazards.md R116 to R118). -/

namespace Sys2Proof.Machine

/-- The faults of R101. Each is fatal: the session ends (R24). `pc` is the address of the instruction
being executed. -/
inductive Fault where
  /-- Code 1. The step engine's fetch with pc + 1 >= 4096 (R37, D7). Safe: the spec stops here. -/
  | fetchOutOfRange (pc : Word)
  /-- Code 2. 00EE with SP = 0 (R60). Safe: "underflow at sp=0 is fatal". -/
  | stackUnderflow (pc : Word)
  /-- Code 3. 2nnn with SP = 15 (R63, D4). Safe: the spec stops here. -/
  | stackOverflow (pc : Word)
  /-- Code 4. A data access of Dxyn, Fx33, Fx55 or Fx65 at an address >= 4096 (R35, R36, D6).
  Safe: the spec stops here. -/
  | memoryOutOfRange (pc : Word) (addr : Nat)
  /-- Code 5. Ex9E or ExA1 with Vx > 15 (R95, R96, D5). Safe: the spec stops here. -/
  | keyIndexOutOfRange (pc : Word) (key : Byte)
  /-- Code 6. Fx1E with I + Vx > 0xFFFF under `P_I_OVERFLOW` = `fault` (R85, D3).
  Safe: the spec stops here. -/
  | indexOverflow (pc : Word) (sum : Nat)
deriving DecidableEq, Repr

/-- Why a step has no meaning in the model. -/
inductive Refusal where
  /-- An arm of `exec` whose instruction has no meaning yet. No arm answers it now. Safe. -/
  | notModelled (mnemonic : String)
  /-- A VF-alias case under `P_VF_ALIAS` = `refuse` (R70, R104), raised by 8xy5, 8xy6, 8xy7, 8xyE and
  Dxyn at `pc`. Safe: it errs toward unprovable. -/
  | vfAlias (pc : Word)
deriving DecidableEq, Repr

/-- The wait-mode state of Fx0A (R21). -/
inductive WaitMode where
  | idle
  | waiting
deriving DecidableEq, Repr

/-- The session status (R24). -/
inductive Status where
  | running
  | faulted (f : Fault)
deriving DecidableEq, Repr

/-- "32 rows × 64 columns of 1-bit pixels": `fb[row][col]` (R19). -/
abbrev Framebuffer := Vector (Vector Bool 64) 32

/-- "16 independent boolean switches, indices 0x0–0xF" (R20). -/
abbrev Keypad := Vector Bool 16

/-- Memory as address and byte pairs, in the canonical form of `Memory.wf` (Machine/Memory.lean). -/
abbrev Memory := List Host.Cell

/-- The output record of a completed cycle (R26). The text of a log event is not specified (D15): it
is the unrecognised word alone. -/
structure Output where
  fb          : Framebuffer
  soundActive : Bool
  log         : Option Word
deriving DecidableEq, Repr

/-- What the host supplies to one step beside the state (R25). -/
structure Input where
  key   : Keypad
  rand8 : Byte
deriving DecidableEq, Repr

/-- The whole state. The fields down to `output` are the spec's; `rand8`, `inputs` and `freeIndex` are
the model's own and carry the step's inputs (log 5, log 6); `params` holds the parameters the spec
takes as an argument (R7, R32; log 1). -/
structure State where
  v         : Vector Byte 16
  i         : Word
  pc        : Word
  sp        : BitVec 4
  stack     : Vector Word 16
  dt        : Byte
  st        : Byte
  fb        : Framebuffer
  key       : Keypad
  wait      : WaitMode
  mem       : Memory
  status    : Status
  output    : Option Output
  params    : Params
  rand8     : Byte
  inputs    : List Input
  freeIndex : Nat
deriving DecidableEq, Repr

/-- Reset: pc, SP, WAIT and the status as R116 gives them; everything R117 leaves to `P_INIT` zero, as
CLEAN_LAUNCH has it (R118; DESIGN CHOICE, log 1, 2, 3, 4, 5, 6, 10). Memory lists nothing, so it reads
as the font table and zeros. -/
def State.reset : State :=
  { v         := .replicate 16 0
    i         := 0
    pc        := 0x200
    sp        := 0
    stack     := .replicate 16 0
    dt        := 0
    st        := 0
    fb        := .replicate 32 (.replicate 64 false)
    key       := .replicate 16 false
    wait      := .idle
    mem       := []
    status    := .running
    output    := none
    params    := .default
    rand8     := 0
    inputs    := []
    freeIndex := 0 }

end Sys2Proof.Machine
end

