-- ==== Sys2Proof/Machine/Ops.lean ====
section
/-! DEFINITION. The named operations over registers, memory and the cycle that the meanings share
(00_scope.md R9; 10_state.md R28, R29; 20_memory.md R35 to R37; 60_exceptions.md R101). -/

namespace Sys2Proof.Machine

/-- What a handler or a part of one ends in: a value, a fault or a refusal. -/
abbrev Result (α : Type) := Host.Outcome α Fault Refusal

/-- Go on with the value; a fault or a refusal ends the handler at once (R105, R107). -/
def andThen {α β : Type} (o : Result α) (f : α → Result β) : Result β :=
  match o with
  | .next a => f a
  | .fault r => .fault r
  | .refused r => .refused r

/-! ### One field at a time -/

/-- `V[r]` (R9). -/
def State.readV (s : State) (r : RegIx) : Byte := s.v[r.toNat]'r.isLt

/-- `V[r] <- b` (R9). No register is hardwired (R13). -/
def State.setV (s : State) (r : RegIx) (b : Byte) : State := { s with v := s.v.set r.toNat b r.isLt }

/-- `I <- w`: "Not masked on write" (R16). -/
def State.setI (s : State) (w : Word) : State := { s with i := w }

/-- `pc <- w`. No value faults when it is set (R15). -/
def State.setPc (s : State) (w : Word) : State := { s with pc := w }

/-- Write the stack pointer. -/
def State.setSp (s : State) (k : BitVec 4) : State := { s with sp := k }

/-- `STACK[k]` (R17). -/
def State.slot (s : State) (k : BitVec 4) : Word := s.stack[k.toNat]'k.isLt

/-- `STACK[k] <- w`. -/
def State.setSlot (s : State) (k : BitVec 4) (w : Word) : State :=
  { s with stack := s.stack.set k.toNat w k.isLt }

/-- `DT <- b`. -/
def State.setDt (s : State) (b : Byte) : State := { s with dt := b }

/-- `ST <- b`. -/
def State.setSt (s : State) (b : Byte) : State := { s with st := b }

/-- `FB[row][col]` (R19). -/
def State.pixel (s : State) (row : Fin 32) (col : Fin 64) : Bool := s.fb[row][col]

/-- `FB[row][col] <- p`. -/
def State.setPixel (s : State) (row : Fin 32) (col : Fin 64) (p : Bool) : State :=
  { s with fb := s.fb.set row (s.fb[row].set col p) }

/-- Every pixel 0. -/
def State.clearFb (s : State) : State := { s with fb := .replicate 32 (.replicate 64 false) }

/-- `WAIT <- w` (R21). -/
def State.setWait (s : State) (w : WaitMode) : State := { s with wait := w }

/-- The byte memory holds at an address; the accesses of a handler go through `loadByte`. -/
def State.readMem (s : State) (a : Nat) : Byte := s.mem.read a

/-- Memory with one byte changed; the stores of a handler go through `storeByte`. -/
def State.writeMem (s : State) (a : Nat) (b : Byte) : State := { s with mem := s.mem.write a b }

/-- Write the output record of the cycle. -/
def State.setOutput (s : State) (o : Output) : State := { s with output := some o }

/-! ### Memory accesses of the instructions -/

/-- `MemRead(addr, 1)` (R35). -/
def loadByte (s : State) (addr : Nat) : Result Byte :=
  if addr < Config.memSize then .next (s.readMem addr) else .fault (.memoryOutOfRange s.pc addr)

/-- `MemWrite(addr, 1, v)` (R36). -/
def storeByte (s : State) (addr : Nat) (b : Byte) : Result State :=
  if addr < Config.memSize then .next (s.writeMem addr b) else .fault (.memoryOutOfRange s.pc addr)

/-- `FetchWord(pc)`: big-endian, any pc up to 0xFFE, odd ones too (R37, R39). -/
def fetchWord (s : State) : Result Word :=
  if s.pc.toNat + 1 < Config.memSize then
    .next (wordOfBytes (s.readMem s.pc.toNat) (s.readMem (s.pc.toNat + 1)))
  else .fault (.fetchOutOfRange s.pc)

/-! ### The call stack -/

/-- SP <- SP + 1; STACK[SP] <- w (R63). The caller has checked SP for 15. -/
def State.push (s : State) (w : Word) : State := (s.setSp (s.sp + 1)).setSlot (s.sp + 1) w

/-- pc <- STACK[SP]; SP <- SP - 1 (R60). The caller has checked SP for 0; the slot keeps its value. -/
def State.popPc (s : State) : State := (s.setPc (s.slot s.sp)).setSp (s.sp - 1)

/-! ### The end of a cycle -/

/-- What a handler hands to the step engine (R29). -/
inductive PcAction where
  | advance
  | skip
  | jump (target : Word)
  | wait
deriving DecidableEq, Repr

/-- "Decremented by exactly 1 per machine cycle while > 0; floor at 0" (R18). -/
def countdown (b : Byte) : Byte := if b = 0 then 0 else b - 1

/-- The timer decrement of R28. -/
def State.tickTimers (s : State) : State := (s.setDt (countdown s.dt)).setSt (countdown s.st)

/-- Apply a PC action (R29). The sums never pass 0x1002 in a run (R15); log 8. -/
def State.applyAction (s : State) : PcAction → State
  | .advance => s.setPc (s.pc + 2)
  | .skip => s.setPc (s.pc + 4)
  | .jump a => s.setPc a
  | .wait => s

/-- Emit the output record: the framebuffer after the instruction, the sound flag after the decrement
(R26). -/
def State.emit (s : State) (log : Option Word) : State :=
  s.setOutput { fb := s.fb, soundActive := s.st != 0, log := log }

/-- All of a cycle after its handler, in the order of R28. -/
def State.endCycle (s : State) (act : PcAction) (log : Option Word) : State :=
  ((s.tickTimers).applyAction act).emit log

/-- A handler that ends without a log event. -/
def complete (act : PcAction) (s : State) : Result State := .next (s.endCycle act none)

/-! ### Taking a fault

There is no trap entry and no return from one (R107, R108): a fault changes the session status and
nothing else that can be observed (R24, D13; log 9). -/

/-- The code of a fault (R101, D19). -/
def Fault.code : Fault → Nat
  | .fetchOutOfRange _ => 1
  | .stackUnderflow _ => 2
  | .stackOverflow _ => 3
  | .memoryOutOfRange _ _ => 4
  | .keyIndexOutOfRange _ _ => 5
  | .indexOverflow _ _ => 6

/-- The session after a fault: `Faulted(f)` (R24). -/
def State.takeFault (s : State) (f : Fault) : State := { s with status := .faulted f }

/-! ### The inputs of a step -/

/-- The KEY and RAND8 of this step (R25): the next pair the host has lined up; with none lined up, the
Keypad State as it stands and a fresh free byte (log 5, log 6). -/
def State.takeInput (s : State) : State :=
  match s.inputs with
  | [] => { s with rand8 := Config.freeRand8 s.freeIndex, freeIndex := s.freeIndex + 1 }
  | inp :: rest => { s with key := inp.key, rand8 := inp.rand8, inputs := rest }

end Sys2Proof.Machine
end

