-- ==== Sys2Proof/Machine/Flags.lean ====
section
/-! DEFINITION. The VF flag: every flag computation of the ISA (10_state.md R14, 41_alu.md R69 to R71,
43_display.md R93) and the VF-alias rule (R70). There is no other flag (R71). -/

namespace Sys2Proof.Machine

/-- Register 15, the flag register (R14). -/
def regF : RegIx := 0xF

/-- A flag as the byte VF holds. -/
def flagByte (c : Bool) : Byte := if c then 1 else 0

/-- The carry of the 9-bit sum (R78). -/
def carryFlag (a b : Byte) : Byte := flagByte (decide (a.toNat + b.toNat > 255))

/-- 1 exactly when the minuend is strictly greater than the subtrahend (R69, R79, R81). -/
def greaterFlag (minuend subtrahend : Byte) : Byte := flagByte (decide (minuend.toNat > subtrahend.toNat))

/-- The bit 8xy6 shifts out (R80). -/
def lowBitFlag (b : Byte) : Byte := b &&& 1

/-- The bit 8xyE shifts out (R82). -/
def highBitFlag (b : Byte) : Byte := b >>> 7

/-- VF after one sprite bit: VF | (s & p) (R92). -/
def collisionFlag (vf : Byte) (sprite pixel : Bool) : Byte := vf ||| flagByte (sprite && pixel)

/-- `V[F] <- b`. -/
def State.setFlag (s : State) (b : Byte) : State := s.setV regF b

/-- The VF-alias cases of 8xy5, 8xy7 and Dxyn: x or y names VF (R70). -/
def aliasXY (x y : RegIx) : Bool := x == regF || y == regF

/-- The VF-alias case of 8xy6 and 8xyE: x names VF; y is ignored (R70). -/
def aliasX (x : RegIx) : Bool := x == regF

/-- Run a handler, but refuse a VF-alias case under `P_VF_ALIAS` = `refuse` (R70, R104). -/
def unlessAliasRefused (isAlias : Bool) (s : State) (r : Result State) : Result State :=
  if isAlias = true ∧ s.params.vfAlias = .refuse then .refused (.vfAlias s.pc) else r

end Sys2Proof.Machine
end

