-- ==== Sys2Proof/Machine/Operands.lean ====
section
/-! DEFINITION. The operand forms (30_encoding.md R51) beyond a plain register: addresses through I,
jump targets, key numbers, decimal digits, and block transfers. -/

namespace Sys2Proof.Machine

/-- The only addressing mode: I plus a constant offset, as an unbounded integer (20_memory.md R35). -/
def State.dataAddr (s : State) (k : Nat) : Nat := s.i.toNat + k

/-- `nnn` as a 16-bit value, zero-extended (R49, R84). -/
def absTarget (nnn : Addr12) : Word := nnn.zeroExtend 16

/-- nnn + V0, unsigned and not reduced modulo 4096; at most 0x10FE (R68). -/
def State.offsetTarget (s : State) (nnn : Addr12) : Word := nnn.zeroExtend 16 + (s.readV 0).zeroExtend 16

/-- Hundreds, tens and ones of a byte (42_index_memory.md R87). -/
def bcdHundreds (b : Byte) : Byte := b / 100
def bcdTens (b : Byte) : Byte := (b / 10) % 10
def bcdOnes (b : Byte) : Byte := b % 10

/-- The switch KEY[k] of the key whose number is the value of a register; a value above 15 faults
(44_keypad_timers.md R95, R96, D5). -/
def keyState (s : State) (k : Byte) : Result Bool :=
  if h : k.toNat < 16 then .next (s.key[k.toNat]'h) else .fault (.keyIndexOutOfRange s.pc k)

/-- The lowest pressed key: indices "in ascending order 0x0..0xF" (R97). -/
def firstPressed (key : Keypad) : Option (Fin 16) := (List.finRange 16).find? fun k => key[k]

/-- `MemWrite(I + i, 1, V[i])` for `count` registers from register `i` on, ascending (R88). -/
def storeRegs : (count i : Nat) → State → Result State
  | 0, _, s => .next s
  | count + 1, i, s =>
    andThen (storeByte s (s.dataAddr i) (s.readV (BitVec.ofNat 4 i))) (storeRegs count (i + 1))

/-- `V[i] <- MemRead(I + i, 1)` for `count` registers from register `i` on, ascending (R89). -/
def loadRegs : (count i : Nat) → State → Result State
  | 0, _, s => .next s
  | count + 1, i, s =>
    andThen (loadByte s (s.dataAddr i)) fun b => loadRegs count (i + 1) (s.setV (BitVec.ofNat 4 i) b)

end Sys2Proof.Machine
end

