-- ==== Sys2Proof/Machine/Alu.lean ====
section
/-! DEFINITION. The ALU instructions (41_alu.md). Each returns Advance and raises no fault; statements
run in the order written, each reading the state the previous one left (00_scope.md R9). -/

namespace Sys2Proof.Machine

/-- 6xkk LD Vx, kk (R72). -/
def execLdVxKk (x : RegIx) (kk : Byte) (s : State) : Result State := complete .advance (s.setV x kk)

/-- 7xkk ADD Vx, kk (R73): modulo 256, no flag. -/
def execAddVxKk (x : RegIx) (kk : Byte) (s : State) : Result State :=
  complete .advance (s.setV x (s.readV x + kk))

/-- 8xy0 LD Vx, Vy (R74). -/
def execLdVxVy (x y : RegIx) (s : State) : Result State := complete .advance (s.setV x (s.readV y))

/-- 8xy1 OR Vx, Vy (R75). -/
def execOrVxVy (x y : RegIx) (s : State) : Result State :=
  complete .advance (s.setV x (s.readV x ||| s.readV y))

/-- 8xy2 AND Vx, Vy (R76). -/
def execAndVxVy (x y : RegIx) (s : State) : Result State :=
  complete .advance (s.setV x (s.readV x &&& s.readV y))

/-- 8xy3 XOR Vx, Vy (R77). -/
def execXorVxVy (x y : RegIx) (s : State) : Result State :=
  complete .advance (s.setV x (s.readV x ^^^ s.readV y))

/-- 8xy4 ADD Vx, Vy (R78): the sum first, the carry last. -/
def execAddVxVy (x y : RegIx) (s : State) : Result State :=
  complete .advance ((s.setV x (s.readV x + s.readV y)).setFlag (carryFlag (s.readV x) (s.readV y)))

/-- 8xy5 SUB Vx, Vy (R79): the flag first, then the difference. -/
def execSubVxVy (x y : RegIx) (s : State) : Result State :=
  unlessAliasRefused (aliasXY x y) s <|
    let s1 := s.setFlag (greaterFlag (s.readV x) (s.readV y))
    complete .advance (s1.setV x (s1.readV x - s1.readV y))

/-- 8xy6 SHR Vx (R80): y is ignored. -/
def execShrVxVy (x _y : RegIx) (s : State) : Result State :=
  unlessAliasRefused (aliasX x) s <|
    let s1 := s.setFlag (lowBitFlag (s.readV x))
    complete .advance (s1.setV x (s1.readV x >>> 1))

/-- 8xy7 SUBN Vx, Vy (R81). -/
def execSubnVxVy (x y : RegIx) (s : State) : Result State :=
  unlessAliasRefused (aliasXY x y) s <|
    let s1 := s.setFlag (greaterFlag (s.readV y) (s.readV x))
    complete .advance (s1.setV x (s1.readV y - s1.readV x))

/-- 8xyE SHL Vx (R82): y is ignored. -/
def execShlVxVy (x _y : RegIx) (s : State) : Result State :=
  unlessAliasRefused (aliasX x) s <|
    let s1 := s.setFlag (highBitFlag (s.readV x))
    complete .advance (s1.setV x (s1.readV x <<< 1))

/-- Cxkk RND Vx, kk (R83): RAND8 is the step's input (10_state.md R25). -/
def execRnd (x : RegIx) (kk : Byte) (s : State) : Result State :=
  complete .advance (s.setV x (s.rand8 &&& kk))

end Sys2Proof.Machine
end

