-- ==== Sys2Proof/Machine/Control.lean ====
section
/-! DEFINITION. The control-flow instructions, the 0nnn no-op and the fallback (40_control_flow.md,
30_encoding.md R55). -/

namespace Sys2Proof.Machine

/-- Skip the next word if the condition holds, else advance (R64 to R67, R95, R96). -/
def skipIf (c : Bool) (s : State) : Result State := complete (if c then .skip else .advance) s

/-- 00EE RET (R60, C4): the saved address, then Advance. -/
def execRet (s : State) : Result State :=
  if s.sp = 0 then .fault (.stackUnderflow s.pc) else complete .advance s.popPc

/-- 0nnn SYS (R61): a no-op, not logged (D15). -/
def execSys (_nnn : Addr12) (s : State) : Result State := complete .advance s

/-- 1nnn JP (R62). -/
def execJp (nnn : Addr12) (s : State) : Result State := complete (.jump (absTarget nnn)) s

/-- 2nnn CALL (R63): pushes its own address. -/
def execCall (nnn : Addr12) (s : State) : Result State :=
  if s.sp = 15 then .fault (.stackOverflow s.pc) else complete (.jump (absTarget nnn)) (s.push s.pc)

/-- 3xkk SE Vx, kk (R64). -/
def execSeVxKk (x : RegIx) (kk : Byte) (s : State) : Result State := skipIf (s.readV x == kk) s

/-- 4xkk SNE Vx, kk (R65). -/
def execSneVxKk (x : RegIx) (kk : Byte) (s : State) : Result State := skipIf (s.readV x != kk) s

/-- 5xy0 SE Vx, Vy (R66). -/
def execSeVxVy (x y : RegIx) (s : State) : Result State := skipIf (s.readV x == s.readV y) s

/-- 9xy0 SNE Vx, Vy (R67). -/
def execSneVxVy (x y : RegIx) (s : State) : Result State := skipIf (s.readV x != s.readV y) s

/-- Bnnn JP V0, nnn (R68). -/
def execJpV0 (nnn : Addr12) (s : State) : Result State := complete (.jump (s.offsetTarget nnn)) s

/-- Any other word (R55): logged, no state change, Advance. -/
def execUnrecognised (w : Word) (s : State) : Result State := .next (s.endCycle .advance (some w))

end Sys2Proof.Machine
end

