-- ==== Sys2Proof/Machine/Display.lean ====
section
/-! DEFINITION. The framebuffer instructions and the collision detector (43_display.md). -/

namespace Sys2Proof.Machine

/-- The screen row of sprite row r and the screen column of sprite column j, with wraparound (R92). -/
def spriteRow (Y : Byte) (r : Nat) : Fin 32 := Fin.ofNat 32 (Y.toNat + r)
def spriteCol (X : Byte) (j : Nat) : Fin 64 := Fin.ofNat 64 (X.toNat + j)

/-- Bit 7 - j of a sprite byte is its column j: bit 7 is the leftmost pixel (R92, D9; PRESUMED by the
spec, log 13). -/
def spriteBit (b : Byte) (j : Nat) : Bool := b.getLsbD (7 - j)

/-- One sprite bit: accumulate the collision, then XOR the pixel (R92). -/
def drawBit (bit : Bool) (row : Fin 32) (col : Fin 64) (s : State) : State :=
  (s.setFlag (collisionFlag (s.readV regF) bit (s.pixel row col))).setPixel row col (s.pixel row col ^^ bit)

/-- Sprite row r, its columns in ascending order (R92). -/
def drawRow (X Y : Byte) (r : Nat) (b : Byte) (s : State) : State :=
  (List.range 8).foldl (fun t j => drawBit (spriteBit b j) (spriteRow Y r) (spriteCol X j) t) s

/-- `count` sprite rows from row r on, each byte read as its row is drawn (R92). -/
def drawRows (X Y : Byte) : (count r : Nat) → State → Result State
  | 0, _, s => .next s
  | count + 1, r, s =>
    andThen (loadByte s (s.dataAddr r)) fun b => drawRows X Y count (r + 1) (drawRow X Y r b s)

/-- 00E0 CLS (R91, C1). -/
def execCls (s : State) : Result State :=
  complete .advance (match s.params.cls with | .clear => s.clearFb | .noop => s)

/-- Dxyn DRW Vx, Vy, n (R92): VF is cleared before the coordinates are read. -/
def execDrw (x y : RegIx) (n : BitVec 4) (s : State) : Result State :=
  unlessAliasRefused (aliasXY x y) s <|
    let s0 := s.setFlag 0
    andThen (drawRows (s0.readV x) (s0.readV y) n.toNat 0 s0) (complete .advance)

end Sys2Proof.Machine
end

