-- ==== Sys2Proof/Machine/Index.lean ====
section
/-! DEFINITION. The index-register and memory instructions (42_index_memory.md). -/

namespace Sys2Proof.Machine

/-- Annn LD I, nnn (R84). -/
def execLdI (nnn : Addr12) (s : State) : Result State := complete .advance (s.setI (absTarget nnn))

/-- Fx1E ADD I, Vx (R85): no flag; past 0xFFFF as `P_I_OVERFLOW` says. -/
def execAddIVx (x : RegIx) (s : State) : Result State :=
  let sum := s.i.toNat + (s.readV x).toNat
  if sum > 0xFFFF ∧ s.params.iOverflow = .fault then .fault (.indexOverflow s.pc sum)
  else complete .advance (s.setI (BitVec.ofNat 16 sum))

/-- Fx29 LD F, Vx (R86): Vx is not masked. -/
def execLdFVx (x : RegIx) (s : State) : Result State :=
  complete .advance (s.setI ((s.readV x).zeroExtend 16 * 5))

/-- Fx33 LD B, Vx (R87): hundreds, tens and ones at I, I + 1, I + 2, in this order. -/
def execLdBVx (x : RegIx) (s : State) : Result State :=
  andThen (storeByte s (s.dataAddr 0) (bcdHundreds (s.readV x))) fun s1 =>
    andThen (storeByte s1 (s1.dataAddr 1) (bcdTens (s1.readV x))) fun s2 =>
      andThen (storeByte s2 (s2.dataAddr 2) (bcdOnes (s2.readV x))) (complete .advance)

/-- Fx55 LD [I], Vx (R88): V0..Vx inclusive. -/
def execLdMemVx (x : RegIx) (s : State) : Result State :=
  andThen (storeRegs (x.toNat + 1) 0 s) (complete .advance)

/-- Fx65 LD Vx, [I] (R89): V0..Vx inclusive. -/
def execLdVxMem (x : RegIx) (s : State) : Result State :=
  andThen (loadRegs (x.toNat + 1) 0 s) (complete .advance)

end Sys2Proof.Machine
end

