-- ==== Sys2Proof/Machine/Keypad.lean ====
section
/-! DEFINITION. The key and timer instructions (44_keypad_timers.md). -/

namespace Sys2Proof.Machine

/-- Ex9E SKP Vx (R95): the key number is the value of Vx. -/
def execSkp (x : RegIx) (s : State) : Result State :=
  andThen (keyState s (s.readV x)) fun pressed => skipIf pressed s

/-- ExA1 SKNP Vx (R96). -/
def execSknp (x : RegIx) (s : State) : Result State :=
  andThen (keyState s (s.readV x)) fun pressed => skipIf (!pressed) s

/-- Fx0A LD Vx, K (R97): the first dispatch only waits; each later one polls. -/
def execLdVxK (x : RegIx) (s : State) : Result State :=
  match s.wait with
  | .idle => complete .wait (s.setWait .waiting)
  | .waiting =>
    match firstPressed s.key with
    | some k => complete .advance ((s.setV x (BitVec.ofNat 8 k.val)).setWait .idle)
    | none => complete .wait s

/-- Fx07 LD Vx, DT (R98): DT from before this cycle's decrement. -/
def execLdVxDt (x : RegIx) (s : State) : Result State := complete .advance (s.setV x s.dt)

/-- Fx15 LD DT, Vx (R99). -/
def execLdDtVx (x : RegIx) (s : State) : Result State := complete .advance (s.setDt (s.readV x))

/-- Fx18 LD ST, Vx (R100). -/
def execLdStVx (x : RegIx) (s : State) : Result State := complete .advance (s.setSt (s.readV x))

end Sys2Proof.Machine
end

