-- ==== Sys2Proof/Machine/Cycle.lean ====
section
/-! DEFINITION. One cycle of the step engine (10_state.md R28) on a state that holds this step's inputs,
and the placing of a word at the fetch address. -/

namespace Sys2Proof.Machine

/-- Fetch, decode, dispatch, and what follows (R28). -/
def runCycle (s : State) : Result State :=
  andThen (fetchWord s) fun w => exec (decodeWord w) s

/-- The step of a session (R24, R28): a Faulted session has no further step, and a Running one takes the
step's inputs (R25) and runs the cycle. -/
def runStep (s : State) : Result State :=
  match s.status with
  | .running => runCycle s.takeInput
  | .faulted f => .fault f

/-- A state that can fetch: the session Running, and pc moved to the entry point only where no word can
be fetched at it (R37). -/
def State.fetchable (s : State) : State :=
  if s.pc.toNat + 1 < Config.memSize then { s with status := .running }
  else { s with status := .running, pc := BitVec.ofNat 16 Config.programStart }

/-- A word stored at pc, big-endian (R37). -/
def State.placeWord (s : State) (w : Word) : State :=
  (s.writeMem s.pc.toNat (bytesOfWord w).1).writeMem (s.pc.toNat + 1) (bytesOfWord w).2

end Sys2Proof.Machine
end

