-- ==== Sys2Proof/Machine/Step.lean ====
section
/-! DEFINITION. The step and the placing of the word it runs next (10_state.md R28). -/

namespace Sys2Proof.Machine

/-- One call of the step engine. -/
def step (s : State) : Host.Outcome State Fault Refusal := runStep s

/-- The state with an opcode-table word stored where the next step fetches (log 11). -/
def State.withFetchWord (s : State) (nbits w : Nat) : State :=
  s.fetchable.placeWord (BitVec.ofNat 16 (w % 2 ^ nbits))

end Sys2Proof.Machine
end

