-- ==== Sys2Proof/Machine/Interface.lean ====
section
/-! DEFINITION. The host's side of the core (10_state.md R27): boot and program load (60_exceptions.md R102,
70_reset_and_hazards.md R116 to R120), key updates, and the session as it goes on after a fault (R24). -/

namespace Sys2Proof.Machine

/-- The launch parameters: the parameters of R7 and one value for each state element of R117. `mem` is the
memory outside the font and the image. -/
structure Launch where
  params : Params
  font   : Vector Byte 80
  v      : Vector Byte 16
  i      : Word
  dt     : Byte
  st     : Byte
  fb     : Framebuffer
  stack  : Vector Word 16
  mem    : Memory
  key    : Keypad
deriving DecidableEq, Repr

/-- CLEAN_LAUNCH (R118), with the default font of R119. -/
def Launch.clean : Launch :=
  { params := .default
    font   := Vector.ofFn fun k => defaultFont.getD k.val 0
    v      := .replicate 16 0
    i      := 0
    dt     := 0
    st     := 0
    fb     := .replicate 32 (.replicate 64 false)
    stack  := .replicate 16 0
    mem    := []
    key    := .replicate 16 false }

/-- Boot steps 1 and 2 (R120): the state a session starts in (R116, R117), the font in place, no program
loaded yet. -/
def Launch.state (l : Launch) : State :=
  { State.reset with
    v := l.v, i := l.i, stack := l.stack, dt := l.dt, st := l.st, fb := l.fb, key := l.key,
    params := l.params, mem := l.mem.writeList 0 l.font.toList }

/-- The load-time failures of R102; no core state is created for such a session. -/
inductive LoadFailure where
  /-- Code 7: `0x200 + length > 4096`. -/
  | imageTooLarge (length : Nat)
  /-- Code 8: the host could not read the image. -/
  | imageUnreadable
deriving DecidableEq, Repr

/-- The codes of R102. -/
def LoadFailure.code : LoadFailure → Nat
  | .imageTooLarge _ => 7
  | .imageUnreadable => 8

/-- Boot step 3 (R120): the image verbatim at 0x200, or a failure if it does not fit (R41, R102). -/
def loadImage (image : List Byte) (s : State) : Except LoadFailure State :=
  if Config.programStart + image.length > Config.memSize then .error (.imageTooLarge image.length)
  else .ok { s with mem := s.mem.writeList Config.programStart image }

/-- Boot (R120): the state before the first step, from the launch parameters and the image, or `none`
where the image is unreadable. -/
def boot (l : Launch) (image : Option (List Byte)) : Except LoadFailure State :=
  match image with
  | none => .error .imageUnreadable
  | some bytes => loadImage bytes l.state

/-- A key update between steps (R27): key k pressed or released. -/
def State.setKey (s : State) (k : Fin 16) (pressed : Bool) : State := { s with key := s.key.set k pressed }

/-- The host lines up the inputs of later steps (R25; log 5). -/
def State.queueInputs (s : State) (more : List Input) : State := { s with inputs := s.inputs ++ more }

/-- The step as the session sees it (R24): a fault leaves a Faulted session, which stays as it is. -/
def sessionStep (s : State) : Result State :=
  match step s with
  | .next t => .next t
  | .fault f => .next (s.takeFault f)
  | .refused r => .refused r

end Sys2Proof.Machine
end

