-- ==== Sys2Proof/Safety.lean ====
section
/-! DEFINITION. The terms the claims use: what a completed cycle leaves alone, the invariants, and safe
runs. -/

namespace Sys2Proof.Machine

/-! ### Frames: what a cycle from `s` to `t` leaves as it was -/

/-- A timer after one cycle: one less, floor at 0 (R18). -/
def CountedDown (old new : Byte) : Prop := new.toNat = old.toNat - 1

/-- Every general register but the listed ones. -/
def SameRegsBut (written : List RegIx) (s t : State) : Prop :=
  ∀ r, r ∉ written → t.readV r = s.readV r

/-- The index register. -/
def SameIndex (s t : State) : Prop := t.i = s.i

/-- SP and every stack slot. -/
def SameStack (s t : State) : Prop := t.sp = s.sp ∧ ∀ k, t.slot k = s.slot k

/-- The wait-mode state. -/
def SameWait (s t : State) : Prop := t.wait = s.wait

/-- Every pixel. -/
def SameScreen (s t : State) : Prop := ∀ row col, t.pixel row col = s.pixel row col

/-- Every byte of memory. -/
def SameMemory (s t : State) : Prop := ∀ a, t.readMem a = s.readMem a

/-- Every byte of memory but those at the listed addresses. -/
def SameMemoryBut (stored : List Nat) (s t : State) : Prop :=
  ∀ a, a ∉ stored → t.readMem a = s.readMem a

/-- What no instruction writes: the keypad and the other inputs of the step, the parameters and the
session status (R20, R24, R32). -/
structure SameOutside (s t : State) : Prop where
  key       : t.key = s.key
  rand8     : t.rand8 = s.rand8
  inputs    : t.inputs = s.inputs
  freeIndex : t.freeIndex = s.freeIndex
  params    : t.params = s.params
  status    : t.status = s.status

/-- The record of the cycle: the framebuffer after the instruction, the sound flag after the decrement, and
the log event (R26). -/
def EmitsRecord (t : State) (log : Option Word) : Prop :=
  t.output = some { fb := t.fb, soundActive := decide (t.st ≠ 0), log := log }

/-- A cycle whose instruction writes neither timer and logs nothing: both timers count down, the record is
emitted, and nothing of `SameOutside` changes. -/
structure PlainCycle (s t : State) : Prop where
  dt      : CountedDown s.dt t.dt
  st      : CountedDown s.st t.st
  record  : EmitsRecord t none
  outside : SameOutside s t

/-- A plain cycle that leaves all but the general registers and pc as they were. -/
structure RegisterCycle (s t : State) : Prop where
  plain  : PlainCycle s t
  index  : SameIndex s t
  stack  : SameStack s t
  wait   : SameWait s t
  screen : SameScreen s t
  memory : SameMemory s t

/-! ### Coordinates of a draw -/

/-- The value Dxyn reads for a coordinate register: VF was cleared before (R92). -/
def State.coordinate (s : State) (r : RegIx) : Byte := if r = regF then 0 else s.readV r

/-- Sprite bit (r, j) falls on the pixel (row, col) when the coordinates are X, Y (R92). -/
def FallsOn (X Y : Byte) (r j : Nat) (row : Fin 32) (col : Fin 64) : Prop :=
  row.val = (Y.toNat + r) % 32 ∧ col.val = (X.toNat + j) % 64

/-- Dxyn runs to its end: no refused alias case, and every sprite row is in memory. -/
def DrawRuns (x y : RegIx) (n : BitVec 4) (s : State) : Prop :=
  (s.params.vfAlias = .sequential ∨ (x ≠ regF ∧ y ≠ regF)) ∧ ∀ r, r < n.toNat → s.dataAddr r < Config.memSize

/-! ### Invariants -/

/-- The addresses of the live stack slots are addresses of fetched instructions (R37, R63). -/
def State.StackBounded (s : State) : Prop :=
  ∀ k : BitVec 4, k ≠ 0 → k.toNat ≤ s.sp.toNat → (s.slot k).toNat ≤ 0xFFE

/-- Memory canonical, pc within reach of a jump (R15), live stack slots bounded. -/
structure State.Inv (s : State) : Prop where
  mem   : s.mem.wf = true
  pc    : s.pc.toNat ≤ 0x10FE
  stack : s.StackBounded

/-- While WAIT is Waiting, the word at pc is a Fx0A (R21, C3). -/
def State.WaitsAtKeyWord (s : State) : Prop :=
  s.wait = .waiting → s.pc.toNat + 1 < Config.memSize ∧
    ∃ x, decodeWord (wordOfBytes (s.readMem s.pc.toNat) (s.readMem (s.pc.toNat + 1))) = .ldVxK x

/-! ### Runs -/

/-- `t` is reached from `s` by completed steps. -/
inductive Reaches (s : State) : State → Prop where
  | refl : Reaches s s
  | tail {t u : State} : Reaches s t → step t = .next u → Reaches s u

/-- A state from which no run stops: the session never faults and no step is refused. -/
def State.Safe (s : State) : Prop := ∀ t, Reaches s t → ∃ u, step t = .next u

end Sys2Proof.Machine
end

