-- ==== Sys2Proof/Certificates/Slice0/Obligations.lean ====
section
/-! DEFINITION. The statements for the provers, each with the rules of spec/ it formalises. A clause that
rests on a decision or an inference of the spec, or on a choice of the model, says so in its docstring. -/

open Sys2Proof Sys2Proof.Machine

/-! ### Encoding and decoding -/

/-- Every well-formed instruction is read back from its bytes, whatever follows them (R48, R53, R54, R57). -/
def Obligations.DecodingAnEncodingGivesTheInstruction : Prop :=
  ∀ (i : Instr) (rest : List Byte), i.wellFormed = true → decode (encode i ++ rest) = .ok (i, rest)

/-- Every word is the encoding of the one well-formed instruction it decodes to (R50, R53). -/
def Obligations.EncodingADecodingGivesTheWord : Prop :=
  ∀ w : Word, (decodeWord w).wellFormed = true ∧ encodeWord (decodeWord w) = w

/-- The nibble dispatcher selects the first row of the opcode map, in the order of R53, whose mask and
match the word meets (R53, R54). -/
def Obligations.DispatchSelectsFirstMatchingRow : Prop :=
  ∀ w : Word, selectRow w = some (decodeWord w).row

/-- The unrecognised words are exactly those R55 lists. -/
def Obligations.UnrecognisedWordsAreThoseListed : Prop :=
  ∀ w : Word, decodeWord w = .unrecognised w ↔
    (w.extractLsb' 12 4 = 0x5 ∧ w.extractLsb' 0 4 ≠ 0x0) ∨
    (w.extractLsb' 12 4 = 0x8 ∧ w.extractLsb' 0 4 ∈ [0x8, 0x9, 0xA, 0xB, 0xC, 0xD, 0xF]) ∨
    (w.extractLsb' 12 4 = 0x9 ∧ w.extractLsb' 0 4 ≠ 0x0) ∨
    (w.extractLsb' 12 4 = 0xE ∧ w.extractLsb' 0 8 ∉ [0x9E, 0xA1]) ∨
    (w.extractLsb' 12 4 = 0xF ∧ w.extractLsb' 0 8 ∉ [0x07, 0x0A, 0x15, 0x18, 0x1E, 0x29, 0x33, 0x55, 0x65])

/-- Words of the spec's own examples, one or more of each family, decode to their instructions
(95_test_vectors.md). -/
def Obligations.ExampleWordsDecode : Prop :=
  decodeWord 0x00E0 = .cls ∧ decodeWord 0x00EE = .ret ∧ decodeWord 0x0123 = .sys 0x123 ∧
  decodeWord 0x2111 = .call 0x111 ∧ decodeWord 0x3153 = .seVxKk 0x1 0x53 ∧
  decodeWord 0x8124 = .addVxVy 0x1 0x2 ∧ decodeWord 0x810E = .shlVxVy 0x1 0x0 ∧
  decodeWord 0xA2F0 = .ldI 0x2F0 ∧ decodeWord 0xF265 = .ldVxMem 0x2 ∧
  decodeWord 0xD012 = .drw 0x0 0x1 0x2 ∧ decodeWord 0xE5A1 = .sknp 0x5 ∧
  decodeWord 0xF20A = .ldVxK 0x2 ∧ decodeWord 0x5121 = .unrecognised 0x5121

/-! ### The step engine -/

/-- When the session is Running and the two bytes at pc decode to i, the step is exec of i on the state
with this step's inputs taken (R28, R37, R38). -/
def Obligations.StepRunsTheDecodedInstruction : Prop :=
  ∀ (s : State) (i : Instr), s.status = .running → s.pc.toNat + 1 < 4096 →
    decode [s.readMem s.pc.toNat, s.readMem (s.pc.toNat + 1)] = .ok (i, []) →
    step s = exec i s.takeInput

/-- A step takes the next KEY and RAND8 the host has lined up; with none lined up the Keypad State stays and
RAND8 is the free value at the counter, which advances. Nothing else of the state changes. The lining up is
the model's choice (log 5, log 6); R25 gives the inputs. -/
def Obligations.StepTakesOneInput : Prop :=
  (∀ (s : State) (inp : Input) (rest : List Input), s.inputs = inp :: rest →
    s.takeInput = { s with key := inp.key, rand8 := inp.rand8, inputs := rest }) ∧
  (∀ s : State, s.inputs = [] →
    s.takeInput = { s with rand8 := Config.freeRand8 s.freeIndex, freeIndex := s.freeIndex + 1 })

/-- A fetch that needs a byte past 0xFFF faults, and no part of the cycle happens (R37, R101; the spec's
decision D7). -/
def Obligations.FetchPastMemoryFaults : Prop :=
  ∀ s : State, s.status = .running → 0xFFF ≤ s.pc.toNat → step s = .fault (.fetchOutOfRange s.pc)

/-- A fault makes the session Faulted with that fault; a Faulted session has no further step and stays as it
is (R24; the state beside the status is the model's choice, log 9). -/
def Obligations.FaultEndsTheSession : Prop :=
  (∀ (s : State) (f : Fault), step s = .fault f → ∃ t, sessionStep s = .next t ∧ t.status = .faulted f) ∧
  (∀ (s : State) (f : Fault), s.status = .faulted f → step s = .fault f ∧ sessionStep s = .next s)

/-- Every completed cycle, whatever its instruction, emits its record, and counts each timer down unless the
instruction is the one that writes that timer (R18, R26, R28). -/
def Obligations.EveryCycleTicksAndEmits : Prop :=
  ∀ (i : Instr) (s t : State), exec i s = .next t →
    EmitsRecord t (match i with | .unrecognised w => some w | _ => none) ∧
    ((∀ x, i ≠ .ldDtVx x) → CountedDown s.dt t.dt) ∧ ((∀ x, i ≠ .ldStVx x) → CountedDown s.st t.st)

/-- With a word placed at pc by State.withFetchWord, the very next step runs exactly that word's instruction,
pc is as it was, and no byte but the two of the word changed. The placing is the model's choice (log 11): it
also makes the session Running, so that this holds from a Faulted state too, to which R24 itself gives no further
step. From the spec are that the fetch sees what memory holds (R46) and reads it big-endian (R37). -/
def Obligations.StepRunsThePlacedWord : Prop :=
  ∀ (s : State) (w : Word), s.mem.wf = true → s.pc.toNat + 1 < 4096 →
    step (s.withFetchWord 16 w.toNat) = exec (decodeWord w) (s.withFetchWord 16 w.toNat).takeInput ∧
    (s.withFetchWord 16 w.toNat).pc = s.pc ∧
    SameMemoryBut [s.pc.toNat, s.pc.toNat + 1] s (s.withFetchWord 16 w.toNat)

/-! ### Rules over all instructions -/

/-- "No instruction other than Annn, Fx1E and Fx29 changes I" (R16, an inference the spec marks). -/
def Obligations.OnlyThreeInstructionsWriteIndex : Prop :=
  ∀ (i : Instr) (s t : State), exec i s = .next t →
    (∀ a, i ≠ .ldI a) → (∀ x, i ≠ .addIVx x) → (∀ x, i ≠ .ldFVx x) → SameIndex s t

/-- Of "No other instruction reads or writes SP or STACK" than 2nnn and 00EE (R17), here the writing: only 2nnn
writes a slot, and only 2nnn and 00EE write SP; and "Slot 0 is never written by a call" (R17). -/
def Obligations.OnlyCallAndReturnWriteTheStack : Prop :=
  ∀ (i : Instr) (s t : State), exec i s = .next t →
    t.slot 0 = s.slot 0 ∧ ((∀ a, i ≠ .call a) → ∀ k, t.slot k = s.slot k) ∧
    ((∀ a, i ≠ .call a) → i ≠ .ret → t.sp = s.sp)

/-- The framebuffer is written by Dxyn, and by 00E0 when P_CLS is clear, and by nothing else (R19). -/
def Obligations.OnlyDrawAndClearWriteTheScreen : Prop :=
  ∀ (i : Instr) (s t : State), exec i s = .next t →
    (∀ x y n, i ≠ .drw x y n) → (i = .cls → s.params.cls = .noop) → SameScreen s t

/-- Of Fx0A and the wait state: "Only Fx0A reads or writes it" (R21), here the writing. -/
def Obligations.OnlyKeyWaitWritesWait : Prop :=
  ∀ (i : Instr) (s t : State), exec i s = .next t → (∀ x, i ≠ .ldVxK x) → SameWait s t

/-- Memory is written by Fx33 and Fx55 only (R34). -/
def Obligations.OnlyTwoInstructionsWriteMemory : Prop :=
  ∀ (i : Instr) (s t : State), exec i s = .next t →
    (∀ x, i ≠ .ldBVx x) → (∀ x, i ≠ .ldMemVx x) → SameMemory s t

/-- "No other instruction writes VF unless VF is its named destination" (R14): all but the six
flag-producing instructions leave VF alone when their x is not 0xF. -/
def Obligations.OnlyFlagInstructionsWriteFlag : Prop :=
  ∀ (i : Instr) (s t : State), exec i s = .next t →
    (match i with
      | .addVxVy _ _ | .subVxVy _ _ | .shrVxVy _ _ | .subnVxVy _ _ | .shlVxVy _ _ | .drw _ _ _ => False
      | .ldVxKk x _ | .addVxKk x _ | .ldVxVy x _ | .orVxVy x _ | .andVxVy x _ | .xorVxVy x _ | .rnd x _
      | .ldVxDt x | .ldVxK x | .ldVxMem x => x ≠ regF
      | _ => True) →
    t.readV regF = s.readV regF

/-- No instruction changes the keypad, the inputs of the step, the parameters or the status (R20, R24,
R32). -/
def Obligations.NoInstructionWritesHostState : Prop :=
  ∀ (i : Instr) (s t : State), exec i s = .next t → SameOutside s t

/-- An instruction that faults does so only as a row of the fault table allows: the row's instruction, its
condition, and the pc, key number or sum it records (R101; the causes of codes 3 to 5 are the spec's decisions
D4 to D6, log 12, and that of code 6 its decision D3, log 1). This is the direction from a fault to its
row. Of the address that code 4 records it says only that it is 4096 or more: FirstAddressOutOfMemoryIsReported
fixes which one it is. The other direction, that each condition does fault, is in ReturnResumesAfterTheCall, CallPushesItsOwnAddress, KeySkipsTestTheKeyNumbered,
AddToIndexFollowsOverflowParameter and FirstAddressOutOfMemoryIsReported. -/
def Obligations.FaultsOnlyAsTabled : Prop :=
  ∀ (i : Instr) (s : State) (f : Fault), exec i s = .fault f →
    match f with
    | .fetchOutOfRange _ => False
    | .stackUnderflow pc => pc = s.pc ∧ i = .ret ∧ s.sp = 0
    | .stackOverflow pc => pc = s.pc ∧ (∃ a, i = .call a) ∧ s.sp = 15
    | .memoryOutOfRange pc addr => pc = s.pc ∧ 4096 ≤ addr ∧
        ((∃ x y n, i = .drw x y n) ∨ ∃ x, i = .ldBVx x ∨ i = .ldMemVx x ∨ i = .ldVxMem x)
    | .keyIndexOutOfRange pc k => pc = s.pc ∧ 15 < k.toNat ∧ ∃ x, (i = .skp x ∨ i = .sknp x) ∧ s.readV x = k
    | .indexOverflow pc sum => pc = s.pc ∧ 0xFFFF < sum ∧ s.params.iOverflow = .fault ∧
        ∃ x, i = .addIVx x ∧ sum = s.i.toNat + (s.readV x).toNat

/-- A VF-alias case is refused under P_VF_ALIAS = refuse, and nothing else is refused ever (R70, R104; the
parameter is the spec's decision D2). -/
def Obligations.OnlyAliasCasesAreRefused : Prop :=
  ∀ (i : Instr) (s : State),
    (∃ r, exec i s = .refused r) ↔
    (s.params.vfAlias = .refuse ∧
      ((∃ x y, (i = .subVxVy x y ∨ i = .subnVxVy x y) ∧ (x = regF ∨ y = regF)) ∨
       (∃ y, i = .shrVxVy regF y ∨ i = .shlVxVy regF y) ∨
       (∃ x y n, i = .drw x y n ∧ (x = regF ∨ y = regF))))

/-! ### Reset, boot and invariants -/

/-- A session that starts from any launch parameters and an image that fits has pc 0x200, SP 0, WAIT Idle and
status Running, the font and the image in memory verbatim, the rest of memory and every other element at its
launch value (R116, R117, R120; WAIT is the spec's decision D12). -/
def Obligations.BootGivesTheLaunchState : Prop :=
  ∀ (l : Launch) (image : List Byte), l.mem.wf = true → 0x200 + image.length ≤ 4096 →
    ∃ s, boot l (some image) = .ok s ∧
      s.pc = 0x200 ∧ s.sp = 0 ∧ s.wait = .idle ∧ s.status = .running ∧
      (∀ k (h : k < 80), s.readMem k = l.font[k]) ∧
      (∀ k (h : k < image.length), s.readMem (0x200 + k) = image[k]) ∧
      (∀ a, 80 ≤ a → (a < 0x200 ∨ 0x200 + image.length ≤ a) → s.readMem a = l.mem.read a) ∧
      s.v = l.v ∧ s.i = l.i ∧ s.dt = l.dt ∧ s.st = l.st ∧ s.fb = l.fb ∧ s.stack = l.stack ∧ s.key = l.key ∧
      s.params = l.params

/-- An image that does not fit, or cannot be read, ends the session before any cycle (R102). The two failures
have the codes 7 and 8, which are the spec's decision D19 (log 12) and not the source's. -/
def Obligations.UnfitImageFailsToLoad : Prop :=
  (∀ (l : Launch) (image : List Byte), 4096 < 0x200 + image.length →
    boot l (some image) = .error (.imageTooLarge image.length)) ∧
  (∀ l : Launch, boot l none = .error .imageUnreadable) ∧
  (∀ n, (LoadFailure.imageTooLarge n).code = 7) ∧ LoadFailure.imageUnreadable.code = 8

/-- The reset state is the CLEAN_LAUNCH state with no image (R118; the zeros and the font are choices,
log 2, log 3) and meets both invariants. -/
def Obligations.ResetIsCleanLaunchAndMeetsInvariants : Prop :=
  boot Launch.clean (some []) = .ok State.reset ∧ State.reset.Inv ∧ State.reset.WaitsAtKeyWord

/-- Every step keeps memory canonical, pc at most 0x10FE, and every live stack slot the address of a
fetched instruction: so pc never wraps past 0xFFFF (R15, an inference the spec marks). -/
def Obligations.StepKeepsPcStackAndMemoryBounded : Prop :=
  ∀ s t : State, s.Inv → step s = .next t → t.Inv

/-- Every step keeps: while WAIT is Waiting, the word at pc is a Fx0A (R21, C3, an inference the spec
marks). -/
def Obligations.StepKeepsWaitingAtAKeyWord : Prop :=
  ∀ s t : State, s.WaitsAtKeyWord → step s = .next t → t.WaitsAtKeyWord

/-- After a completed cycle pc is even and at most 0xFFE, if the jump, call and Bnnn targets are, the
return address is, skips start at most at 0xFFA and advances at most at 0xFFC (R33). -/
def Obligations.PcStaysEvenAndFetchable : Prop :=
  ∀ (i : Instr) (s t : State), exec i s = .next t → s.pc.toNat % 2 = 0 → s.pc.toNat ≤ 0xFFE →
    (match i with
      | .jp a | .call a => a.toNat % 2 = 0 ∧ a.toNat ≤ 0xFFE
      | .jpV0 a => (a.toNat + (s.readV 0).toNat) % 2 = 0 ∧ a.toNat + (s.readV 0).toNat ≤ 0xFFE
      | .ret => (s.slot s.sp).toNat % 2 = 0 ∧ (s.slot s.sp).toNat ≤ 0xFFC
      | _ => (t.pc = s.pc + 4 → s.pc.toNat ≤ 0xFFA) ∧ (t.pc = s.pc + 2 → s.pc.toNat ≤ 0xFFC)) →
    t.pc.toNat % 2 = 0 ∧ t.pc.toNat ≤ 0xFFE

/-- Two canonical memories that read alike at every address are equal data (the model's own form of R34). -/
def Obligations.CanonicalMemoriesAreEqualWhenTheyReadAlike : Prop :=
  ∀ m m' : Memory, m.wf = true → m'.wf = true → (∀ a, m.read a = m'.read a) → m = m'

/-! ### Control flow -/

/-- RET: pc <- STACK[SP]; SP <- SP - 1; Advance. The slot keeps its value. With SP = 0 it faults (R60; the
final pc is an inference the spec marks, C4). -/
def Obligations.ReturnResumesAfterTheCall : Prop :=
  ∀ s : State,
    (s.sp ≠ 0 → ∃ t, exec .ret s = .next t ∧ t.pc = s.slot s.sp + 2 ∧ t.sp.toNat = s.sp.toNat - 1 ∧
      (∀ k, t.slot k = s.slot k) ∧ PlainCycle s t ∧ SameRegsBut [] s t ∧ SameIndex s t ∧ SameWait s t ∧
      SameScreen s t ∧ SameMemory s t) ∧
    (s.sp = 0 → exec .ret s = .fault (.stackUnderflow s.pc))

/-- SYS is a no-op: it advances, and logs nothing (R61; that it is not logged is the spec's decision
D15). -/
def Obligations.SysIsANoOp : Prop :=
  ∀ (nnn : Addr12) (s : State),
    ∃ t, exec (.sys nnn) s = .next t ∧ t.pc = s.pc + 2 ∧ RegisterCycle s t ∧ SameRegsBut [] s t

/-- JP nnn (R62), with its encoding. -/
def Obligations.JumpSetsPc : Prop :=
  ∀ (nnn : Addr12) (s : State), decodeWord (0x1#4 ++ nnn) = .jp nnn ∧
    ∃ t, exec (.jp nnn) s = .next t ∧ t.pc.toNat = nnn.toNat ∧ RegisterCycle s t ∧ SameRegsBut [] s t

/-- CALL nnn pushes its own address and jumps (R63); with SP = 15 it faults (the spec's decision D4). -/
def Obligations.CallPushesItsOwnAddress : Prop :=
  ∀ (nnn : Addr12) (s : State),
    (s.sp ≠ 15 → ∃ t, exec (.call nnn) s = .next t ∧ t.pc.toNat = nnn.toNat ∧
      t.sp.toNat = s.sp.toNat + 1 ∧ t.slot t.sp = s.pc ∧ (∀ k, k ≠ t.sp → t.slot k = s.slot k) ∧
      PlainCycle s t ∧ SameRegsBut [] s t ∧ SameIndex s t ∧ SameWait s t ∧ SameScreen s t ∧
      SameMemory s t) ∧
    (s.sp = 15 → exec (.call nnn) s = .fault (.stackOverflow s.pc))

/-- SE Vx, kk and SNE Vx, kk skip one word or advance (R64, R65), with their encodings. -/
def Obligations.SkipsCompareWithImmediate : Prop :=
  ∀ (x : RegIx) (kk : Byte) (s : State),
    decodeWord (0x3#4 ++ x ++ kk) = .seVxKk x kk ∧ decodeWord (0x4#4 ++ x ++ kk) = .sneVxKk x kk ∧
    (∃ t, exec (.seVxKk x kk) s = .next t ∧ (s.readV x = kk → t.pc = s.pc + 4) ∧
      (s.readV x ≠ kk → t.pc = s.pc + 2) ∧ RegisterCycle s t ∧ SameRegsBut [] s t) ∧
    (∃ t, exec (.sneVxKk x kk) s = .next t ∧ (s.readV x ≠ kk → t.pc = s.pc + 4) ∧
      (s.readV x = kk → t.pc = s.pc + 2) ∧ RegisterCycle s t ∧ SameRegsBut [] s t)

/-- SE Vx, Vy and SNE Vx, Vy (R66, R67), with their encodings. -/
def Obligations.SkipsCompareRegisters : Prop :=
  ∀ (x y : RegIx) (s : State),
    decodeWord (0x5#4 ++ x ++ y ++ 0x0#4) = .seVxVy x y ∧ decodeWord (0x9#4 ++ x ++ y ++ 0x0#4) = .sneVxVy x y ∧
    (∀ n : BitVec 4, n ≠ 0 → decodeWord (0x5#4 ++ x ++ y ++ n) = .unrecognised (0x5#4 ++ x ++ y ++ n) ∧
      decodeWord (0x9#4 ++ x ++ y ++ n) = .unrecognised (0x9#4 ++ x ++ y ++ n)) ∧
    (∃ t, exec (.seVxVy x y) s = .next t ∧ (s.readV x = s.readV y → t.pc = s.pc + 4) ∧
      (s.readV x ≠ s.readV y → t.pc = s.pc + 2) ∧ RegisterCycle s t ∧ SameRegsBut [] s t) ∧
    (∃ t, exec (.sneVxVy x y) s = .next t ∧ (s.readV x ≠ s.readV y → t.pc = s.pc + 4) ∧
      (s.readV x = s.readV y → t.pc = s.pc + 2) ∧ RegisterCycle s t ∧ SameRegsBut [] s t)

/-- JP V0, nnn: nnn + V0, always V0, not reduced modulo 4096 (R68; that the target is not masked is an
inference the spec marks). -/
def Obligations.OffsetJumpAddsV0 : Prop :=
  ∀ (nnn : Addr12) (s : State), decodeWord (0xB#4 ++ nnn) = .jpV0 nnn ∧
    ∃ t, exec (.jpV0 nnn) s = .next t ∧ t.pc.toNat = nnn.toNat + (s.readV 0).toNat ∧ RegisterCycle s t ∧
      SameRegsBut [] s t

/-- An unrecognised word is logged, changes no state and advances (R55). -/
def Obligations.UnrecognisedWordIsLogged : Prop :=
  ∀ (w : Word) (s : State),
    ∃ t, exec (.unrecognised w) s = .next t ∧ t.pc = s.pc + 2 ∧ EmitsRecord t (some w) ∧
      CountedDown s.dt t.dt ∧ CountedDown s.st t.st ∧ SameOutside s t ∧ SameRegsBut [] s t ∧ SameIndex s t ∧
      SameStack s t ∧ SameWait s t ∧ SameScreen s t ∧ SameMemory s t

/-! ### ALU -/

/-- LD Vx, kk and LD Vx, Vy (R72, R74), with their encodings. -/
def Obligations.LoadsWriteTheDestination : Prop :=
  ∀ (x y : RegIx) (kk : Byte) (s : State),
    decodeWord (0x6#4 ++ x ++ kk) = .ldVxKk x kk ∧ decodeWord (0x8#4 ++ x ++ y ++ 0x0#4) = .ldVxVy x y ∧
    (∃ t, exec (.ldVxKk x kk) s = .next t ∧ t.readV x = kk ∧ t.pc = s.pc + 2 ∧ RegisterCycle s t ∧
      SameRegsBut [x] s t) ∧
    (∃ t, exec (.ldVxVy x y) s = .next t ∧ t.readV x = s.readV y ∧ t.pc = s.pc + 2 ∧ RegisterCycle s t ∧
      SameRegsBut [x] s t)

/-- ADD Vx, kk: modulo 256, no flag (R73), with its encoding. -/
def Obligations.AddImmediateWrapsWithoutFlag : Prop :=
  ∀ (x : RegIx) (kk : Byte) (s : State), decodeWord (0x7#4 ++ x ++ kk) = .addVxKk x kk ∧
    ∃ t, exec (.addVxKk x kk) s = .next t ∧ (t.readV x).toNat = ((s.readV x).toNat + kk.toNat) % 256 ∧
      t.pc = s.pc + 2 ∧ RegisterCycle s t ∧ SameRegsBut [x] s t

/-- OR, AND and XOR bit by bit, no flag (R75, R76, R77), with their encodings. -/
def Obligations.LogicOperationsWriteNoFlag : Prop :=
  ∀ (x y : RegIx) (s : State),
    decodeWord (0x8#4 ++ x ++ y ++ 0x1#4) = .orVxVy x y ∧ decodeWord (0x8#4 ++ x ++ y ++ 0x2#4) = .andVxVy x y ∧
    decodeWord (0x8#4 ++ x ++ y ++ 0x3#4) = .xorVxVy x y ∧
    (∃ t, exec (.orVxVy x y) s = .next t ∧
      (∀ k, (t.readV x).getLsbD k = ((s.readV x).getLsbD k || (s.readV y).getLsbD k)) ∧
      t.pc = s.pc + 2 ∧ RegisterCycle s t ∧ SameRegsBut [x] s t) ∧
    (∃ t, exec (.andVxVy x y) s = .next t ∧
      (∀ k, (t.readV x).getLsbD k = ((s.readV x).getLsbD k && (s.readV y).getLsbD k)) ∧
      t.pc = s.pc + 2 ∧ RegisterCycle s t ∧ SameRegsBut [x] s t) ∧
    (∃ t, exec (.xorVxVy x y) s = .next t ∧
      (∀ k, (t.readV x).getLsbD k = ((s.readV x).getLsbD k ^^ (s.readV y).getLsbD k)) ∧
      t.pc = s.pc + 2 ∧ RegisterCycle s t ∧ SameRegsBut [x] s t)

/-- ADD Vx, Vy: the sum modulo 256, then VF the carry, from both operands as they were (R78), with its
encoding. When x is VF the carry is what stays. -/
def Obligations.AddRegistersSetsCarryLast : Prop :=
  ∀ (x y : RegIx) (s : State), decodeWord (0x8#4 ++ x ++ y ++ 0x4#4) = .addVxVy x y ∧
    ∃ t, exec (.addVxVy x y) s = .next t ∧
      (x ≠ regF → (t.readV x).toNat = ((s.readV x).toNat + (s.readV y).toNat) % 256) ∧
      (t.readV regF).toNat = (if (s.readV x).toNat + (s.readV y).toNat > 255 then 1 else 0) ∧
      t.pc = s.pc + 2 ∧ RegisterCycle s t ∧ SameRegsBut [x, regF] s t

/-- SUB and SUBN away from the VF-alias cases: the difference modulo 256, VF 1 exactly when the minuend is
strictly greater (R69, R79, R81), under either value of P_VF_ALIAS. -/
def Obligations.SubtractionsSetStrictFlag : Prop :=
  ∀ (x y : RegIx) (s : State), x ≠ regF → y ≠ regF →
    (∃ t, exec (.subVxVy x y) s = .next t ∧
      (t.readV x).toNat = ((s.readV x).toNat + 256 - (s.readV y).toNat) % 256 ∧
      (t.readV regF).toNat = (if (s.readV x).toNat > (s.readV y).toNat then 1 else 0) ∧
      t.pc = s.pc + 2 ∧ RegisterCycle s t ∧ SameRegsBut [x, regF] s t) ∧
    (∃ t, exec (.subnVxVy x y) s = .next t ∧
      (t.readV x).toNat = ((s.readV y).toNat + 256 - (s.readV x).toNat) % 256 ∧
      (t.readV regF).toNat = (if (s.readV y).toNat > (s.readV x).toNat then 1 else 0) ∧
      t.pc = s.pc + 2 ∧ RegisterCycle s t ∧ SameRegsBut [x, regF] s t)

/-- SUB in its VF-alias cases under P_VF_ALIAS = sequential (R79, inferences the spec marks; the parameter
is its decision D2). -/
def Obligations.SubtractAliasCasesRunInOrder : Prop :=
  ∀ (r : RegIx) (s : State), s.params.vfAlias = .sequential → r ≠ regF →
    (∃ t, exec (.subVxVy regF r) s = .next t ∧
      (t.readV regF).toNat =
        ((if (s.readV regF).toNat > (s.readV r).toNat then 1 else 0) + 256 - (s.readV r).toNat) % 256 ∧
      t.pc = s.pc + 2 ∧ RegisterCycle s t ∧ SameRegsBut [regF] s t) ∧
    (∃ t f, exec (.subVxVy r regF) s = .next t ∧
      f = (if (s.readV r).toNat > (s.readV regF).toNat then 1 else 0) ∧ (t.readV regF).toNat = f ∧
      (t.readV r).toNat = ((s.readV r).toNat + 256 - f) % 256 ∧
      t.pc = s.pc + 2 ∧ RegisterCycle s t ∧ SameRegsBut [r, regF] s t) ∧
    (∃ t, exec (.subVxVy regF regF) s = .next t ∧ t.readV regF = 0 ∧
      t.pc = s.pc + 2 ∧ RegisterCycle s t ∧ SameRegsBut [regF] s t)

/-- SUBN in its VF-alias cases under P_VF_ALIAS = sequential (R81, inferences the spec marks; decision
D2). -/
def Obligations.ReverseSubtractAliasCasesRunInOrder : Prop :=
  ∀ (r : RegIx) (s : State), s.params.vfAlias = .sequential → r ≠ regF →
    (∃ t f, exec (.subnVxVy regF r) s = .next t ∧
      f = (if (s.readV r).toNat > (s.readV regF).toNat then 1 else 0) ∧
      (t.readV regF).toNat = ((s.readV r).toNat + 256 - f) % 256 ∧
      t.pc = s.pc + 2 ∧ RegisterCycle s t ∧ SameRegsBut [regF] s t) ∧
    (∃ t f, exec (.subnVxVy r regF) s = .next t ∧
      f = (if (s.readV regF).toNat > (s.readV r).toNat then 1 else 0) ∧ (t.readV regF).toNat = f ∧
      (t.readV r).toNat = (f + 256 - (s.readV r).toNat) % 256 ∧
      t.pc = s.pc + 2 ∧ RegisterCycle s t ∧ SameRegsBut [r, regF] s t) ∧
    (∃ t, exec (.subnVxVy regF regF) s = .next t ∧ t.readV regF = 0 ∧
      t.pc = s.pc + 2 ∧ RegisterCycle s t ∧ SameRegsBut [regF] s t)

/-- SHR and SHL shift Vx, whatever y is, and set VF to the bit shifted out (R80, R82), away from the
VF-alias case and under either value of P_VF_ALIAS. -/
def Obligations.ShiftsSetTheBitShiftedOut : Prop :=
  ∀ (x y : RegIx) (s : State), x ≠ regF →
    (∃ t, exec (.shrVxVy x y) s = .next t ∧ (t.readV x).toNat = (s.readV x).toNat / 2 ∧
      (t.readV regF).toNat = (s.readV x).toNat % 2 ∧
      t.pc = s.pc + 2 ∧ RegisterCycle s t ∧ SameRegsBut [x, regF] s t) ∧
    (∃ t, exec (.shlVxVy x y) s = .next t ∧ (t.readV x).toNat = (2 * (s.readV x).toNat) % 256 ∧
      (t.readV regF).toNat = (s.readV x).toNat / 128 ∧
      t.pc = s.pc + 2 ∧ RegisterCycle s t ∧ SameRegsBut [x, regF] s t)

/-- SHR and SHL with x = 0xF under P_VF_ALIAS = sequential (R80, R82, inferences the spec marks; decision
D2): VF ends 0, or twice the old bit 7. -/
def Obligations.ShiftAliasCasesRunInOrder : Prop :=
  ∀ (y : RegIx) (s : State), s.params.vfAlias = .sequential →
    (∃ t, exec (.shrVxVy regF y) s = .next t ∧ t.readV regF = 0 ∧
      t.pc = s.pc + 2 ∧ RegisterCycle s t ∧ SameRegsBut [regF] s t) ∧
    (∃ t, exec (.shlVxVy regF y) s = .next t ∧ (t.readV regF).toNat = 2 * ((s.readV regF).toNat / 128) ∧
      t.pc = s.pc + 2 ∧ RegisterCycle s t ∧ SameRegsBut [regF] s t)

/-- RND Vx, kk: RAND8 AND kk, for every RAND8 (R83), with its encoding. -/
def Obligations.RandomByteIsMasked : Prop :=
  ∀ (x : RegIx) (kk : Byte) (s : State), decodeWord (0xC#4 ++ x ++ kk) = .rnd x kk ∧
    ∃ t, exec (.rnd x kk) s = .next t ∧
      (∀ k, (t.readV x).getLsbD k = (s.rand8.getLsbD k && kk.getLsbD k)) ∧
      t.pc = s.pc + 2 ∧ RegisterCycle s t ∧ SameRegsBut [x] s t

/-! ### Index register and memory -/

/-- LD I, nnn and LD F, Vx (R84, R86), with their encodings; Vx is not masked. -/
def Obligations.IndexLoadsSetIndex : Prop :=
  ∀ (nnn : Addr12) (x : RegIx) (s : State),
    decodeWord (0xA#4 ++ nnn) = .ldI nnn ∧ decodeWord (0xF#4 ++ x ++ 0x29#8) = .ldFVx x ∧
    (∃ t, exec (.ldI nnn) s = .next t ∧ t.i.toNat = nnn.toNat ∧ t.pc = s.pc + 2 ∧ PlainCycle s t ∧
      SameRegsBut [] s t ∧ SameStack s t ∧ SameWait s t ∧ SameScreen s t ∧ SameMemory s t) ∧
    (∃ t, exec (.ldFVx x) s = .next t ∧ t.i.toNat = (s.readV x).toNat * 5 ∧ t.pc = s.pc + 2 ∧ PlainCycle s t ∧
      SameRegsBut [] s t ∧ SameStack s t ∧ SameWait s t ∧ SameScreen s t ∧ SameMemory s t)

/-- ADD I, Vx: the sum, no flag; past 0xFFFF it faults or wraps as P_I_OVERFLOW says (R85; the parameter is
the spec's decision D3). -/
def Obligations.AddToIndexFollowsOverflowParameter : Prop :=
  ∀ (x : RegIx) (s : State),
    ((s.i.toNat + (s.readV x).toNat ≤ 0xFFFF ∨ s.params.iOverflow = .wrap) →
      ∃ t, exec (.addIVx x) s = .next t ∧ t.i.toNat = (s.i.toNat + (s.readV x).toNat) % 65536 ∧
        t.pc = s.pc + 2 ∧ PlainCycle s t ∧ SameRegsBut [] s t ∧ SameStack s t ∧ SameWait s t ∧
        SameScreen s t ∧ SameMemory s t) ∧
    (0xFFFF < s.i.toNat + (s.readV x).toNat → s.params.iOverflow = .fault →
      exec (.addIVx x) s = .fault (.indexOverflow s.pc (s.i.toNat + (s.readV x).toNat)))

/-- LD B, Vx stores the three decimal digits of Vx at I, I + 1, I + 2 and nothing else (R87). -/
def Obligations.DecimalDigitsAreStored : Prop :=
  ∀ (x : RegIx) (s : State), s.mem.wf = true → s.dataAddr 2 < 4096 →
    ∃ t, exec (.ldBVx x) s = .next t ∧
      (t.readMem (s.dataAddr 0)).toNat = (s.readV x).toNat / 100 ∧
      (t.readMem (s.dataAddr 1)).toNat = (s.readV x).toNat / 10 % 10 ∧
      (t.readMem (s.dataAddr 2)).toNat = (s.readV x).toNat % 10 ∧
      SameMemoryBut [s.dataAddr 0, s.dataAddr 1, s.dataAddr 2] s t ∧
      t.pc = s.pc + 2 ∧ PlainCycle s t ∧ SameRegsBut [] s t ∧ SameIndex s t ∧ SameStack s t ∧ SameWait s t ∧
      SameScreen s t

/-- LD [I], Vx stores V0..Vx, inclusive, at I..I+x and nothing else; I is unchanged (R88). -/
def Obligations.BlockStoreWritesRegisters : Prop :=
  ∀ (x : RegIx) (s : State), s.mem.wf = true → s.dataAddr x.toNat < 4096 →
    ∃ t, exec (.ldMemVx x) s = .next t ∧
      (∀ r : RegIx, r.toNat ≤ x.toNat → t.readMem (s.dataAddr r.toNat) = s.readV r) ∧
      SameMemoryBut ((List.range (x.toNat + 1)).map s.dataAddr) s t ∧
      t.pc = s.pc + 2 ∧ PlainCycle s t ∧ SameRegsBut [] s t ∧ SameIndex s t ∧ SameStack s t ∧ SameWait s t ∧
      SameScreen s t

/-- LD Vx, [I] loads V0..Vx, inclusive, from I..I+x; I is unchanged (R89). -/
def Obligations.BlockLoadReadsRegisters : Prop :=
  ∀ (x : RegIx) (s : State), s.dataAddr x.toNat < 4096 →
    ∃ t, exec (.ldVxMem x) s = .next t ∧
      (∀ r : RegIx, r.toNat ≤ x.toNat → t.readV r = s.readMem (s.dataAddr r.toNat)) ∧
      (∀ r : RegIx, x.toNat < r.toNat → t.readV r = s.readV r) ∧
      t.pc = s.pc + 2 ∧ RegisterCycle s t

/-- Fx55 then Fx65 with the same x restores every register (R90). -/
def Obligations.BlockStoreThenLoadRestoresRegisters : Prop :=
  ∀ (x : RegIx) (s : State), s.mem.wf = true → s.dataAddr x.toNat < 4096 →
    ∃ t u, exec (.ldMemVx x) s = .next t ∧ exec (.ldVxMem x) t = .next u ∧ SameRegsBut [] s u ∧
      SameIndex s u

/-- Fx33, Fx55, Fx65 and Dxyn fault when an access leaves memory, and report the first such address in
ascending order (R87, R88, R89, R92, R105; the fault is the spec's decision D6). -/
def Obligations.FirstAddressOutOfMemoryIsReported : Prop :=
  ∀ (x y : RegIx) (n : BitVec 4) (s : State),
    (4096 ≤ s.dataAddr 2 → exec (.ldBVx x) s = .fault (.memoryOutOfRange s.pc (max s.i.toNat 4096))) ∧
    (4096 ≤ s.dataAddr x.toNat →
      exec (.ldMemVx x) s = .fault (.memoryOutOfRange s.pc (max s.i.toNat 4096)) ∧
      exec (.ldVxMem x) s = .fault (.memoryOutOfRange s.pc (max s.i.toNat 4096))) ∧
    (n ≠ 0 → 4096 ≤ s.dataAddr (n.toNat - 1) → (s.params.vfAlias = .sequential ∨ (x ≠ regF ∧ y ≠ regF)) →
      exec (.drw x y n) s = .fault (.memoryOutOfRange s.pc (max s.i.toNat 4096)))

/-! ### Framebuffer -/

/-- CLS clears every pixel under P_CLS = clear and changes nothing under noop (R91, C1; the parameter is the
spec's decision D1). -/
def Obligations.ClearScreenFollowsParameter : Prop :=
  ∀ s : State, ∃ t, exec .cls s = .next t ∧
    (s.params.cls = .clear → ∀ row col, t.pixel row col = false) ∧ (s.params.cls = .noop → SameScreen s t) ∧
    t.pc = s.pc + 2 ∧ PlainCycle s t ∧ SameRegsBut [] s t ∧ SameIndex s t ∧ SameStack s t ∧ SameWait s t ∧
    SameMemory s t

/-- DRW XORs each sprite bit into its pixel, with wraparound, and leaves every other pixel; VF cleared first
(R92, R93; that bit 7 is leftmost is the spec's decision D9, and the alias coordinates are its decision
D2). -/
def Obligations.DrawXorsTheSprite : Prop :=
  ∀ (x y : RegIx) (n : BitVec 4) (s : State), DrawRuns x y n s →
    ∃ t, exec (.drw x y n) s = .next t ∧
      (∀ r j row col, r < n.toNat → j < 8 → FallsOn (s.coordinate x) (s.coordinate y) r j row col →
        t.pixel row col = (s.pixel row col ^^ (s.readMem (s.dataAddr r)).getLsbD (7 - j))) ∧
      (∀ row col, (∀ r j, r < n.toNat → j < 8 → ¬ FallsOn (s.coordinate x) (s.coordinate y) r j row col) →
        t.pixel row col = s.pixel row col) ∧
      t.pc = s.pc + 2 ∧ PlainCycle s t ∧ SameRegsBut [regF] s t ∧ SameIndex s t ∧ SameStack s t ∧
      SameWait s t ∧ SameMemory s t

/-- After DRW, VF is 1 exactly when the draw turned at least one lit pixel off, and 0 otherwise (R93). -/
def Obligations.DrawReportsCollision : Prop :=
  ∀ (x y : RegIx) (n : BitVec 4) (s t : State), exec (.drw x y n) s = .next t →
    ((∃ row col, s.pixel row col = true ∧ t.pixel row col = false) → t.readV regF = 1) ∧
    ((∀ row col, s.pixel row col = true → t.pixel row col = true) → t.readV regF = 0)

/-- Drawing the same sprite twice at the same coordinates restores the screen, and the second draw reports a
collision if the first lit a dark pixel (95_test_vectors.md S6; R92, R93). -/
def Obligations.DrawingTwiceRestoresTheScreen : Prop :=
  ∀ (x y : RegIx) (n : BitVec 4) (s t u : State), exec (.drw x y n) s = .next t → exec (.drw x y n) t = .next u →
    SameScreen s u ∧
    ((∃ row col, s.pixel row col = false ∧ t.pixel row col = true) → u.readV regF = 1)

/-! ### Keypad and timers -/

/-- SKP skips if the key numbered Vx is pressed, SKNP if it is not; Vx is the key's number (R95, R96). A value
above 15 faults (the spec's decision D5). -/
def Obligations.KeySkipsTestTheKeyNumbered : Prop :=
  ∀ (x : RegIx) (s : State),
    (∀ k : Fin 16, (s.readV x).toNat = k.val →
      (∃ t, exec (.skp x) s = .next t ∧ (s.key[k] = true → t.pc = s.pc + 4) ∧
        (s.key[k] = false → t.pc = s.pc + 2) ∧ RegisterCycle s t ∧ SameRegsBut [] s t) ∧
      (∃ t, exec (.sknp x) s = .next t ∧ (s.key[k] = false → t.pc = s.pc + 4) ∧
        (s.key[k] = true → t.pc = s.pc + 2) ∧ RegisterCycle s t ∧ SameRegsBut [] s t)) ∧
    (15 < (s.readV x).toNat →
      exec (.skp x) s = .fault (.keyIndexOutOfRange s.pc (s.readV x)) ∧
      exec (.sknp x) s = .fault (.keyIndexOutOfRange s.pc (s.readV x)))

/-- LD Vx, K is the wait state machine of R97: the first dispatch only waits; a poll with no key stays; a poll
with the lowest pressed key k stores k, goes Idle and advances. -/
def Obligations.KeyWaitFollowsItsStateTable : Prop :=
  ∀ (x : RegIx) (s : State), decodeWord (0xF#4 ++ x ++ 0x0A#8) = .ldVxK x ∧
    (s.wait = .idle → ∃ t, exec (.ldVxK x) s = .next t ∧ t.wait = .waiting ∧ t.pc = s.pc ∧
      PlainCycle s t ∧ SameRegsBut [] s t ∧ SameIndex s t ∧ SameStack s t ∧ SameScreen s t ∧ SameMemory s t) ∧
    (s.wait = .waiting → (∀ k : Fin 16, s.key[k] = false) →
      ∃ t, exec (.ldVxK x) s = .next t ∧ t.wait = .waiting ∧ t.pc = s.pc ∧
        PlainCycle s t ∧ SameRegsBut [] s t ∧ SameIndex s t ∧ SameStack s t ∧ SameScreen s t ∧ SameMemory s t) ∧
    (∀ k : Fin 16, s.wait = .waiting → s.key[k] = true → (∀ j : Fin 16, j < k → s.key[j] = false) →
      ∃ t, exec (.ldVxK x) s = .next t ∧ (t.readV x).toNat = k.val ∧ t.wait = .idle ∧ t.pc = s.pc + 2 ∧
        PlainCycle s t ∧ SameRegsBut [x] s t ∧ SameIndex s t ∧ SameStack s t ∧ SameScreen s t ∧ SameMemory s t)

/-- LD Vx, DT reads DT from before this cycle's decrement (R98), with its encoding. -/
def Obligations.DelayTimerIsReadBeforeDecrement : Prop :=
  ∀ (x : RegIx) (s : State), decodeWord (0xF#4 ++ x ++ 0x07#8) = .ldVxDt x ∧
    ∃ t, exec (.ldVxDt x) s = .next t ∧ t.readV x = s.dt ∧ t.pc = s.pc + 2 ∧ RegisterCycle s t ∧
      SameRegsBut [x] s t

/-- LD DT, Vx and LD ST, Vx: the same cycle's decrement applies to the value written (R99, R100, inferences
the spec marks); the sound flag follows the decrement. -/
def Obligations.WrittenTimersCountDownAtOnce : Prop :=
  ∀ (x : RegIx) (s : State),
    (∃ t, exec (.ldDtVx x) s = .next t ∧ CountedDown (s.readV x) t.dt ∧ CountedDown s.st t.st ∧
      t.pc = s.pc + 2 ∧ EmitsRecord t none ∧ SameOutside s t ∧ SameRegsBut [] s t ∧ SameIndex s t ∧
      SameStack s t ∧ SameWait s t ∧ SameScreen s t ∧ SameMemory s t) ∧
    (∃ t, exec (.ldStVx x) s = .next t ∧ CountedDown (s.readV x) t.st ∧ CountedDown s.dt t.dt ∧
      t.pc = s.pc + 2 ∧ EmitsRecord t none ∧ SameOutside s t ∧ SameRegsBut [] s t ∧ SameIndex s t ∧
      SameStack s t ∧ SameWait s t ∧ SameScreen s t ∧ SameMemory s t)
end

