-- ==== Sys2Proof/Laws/Decode.lean ====
section
/-! SUPPORT. The fields of a word written in one of the three shapes of 30_encoding.md R48, the masks of R54
on it, and the bytes of a word. -/

namespace Sys2Proof

/-! ### The shapes p nnn, p x kk and p x y n -/

variable (p : BitVec 4) (nnn : Addr12) (x y : RegIx) (kk : Byte) (n : BitVec 4)

theorem n1_nnn : (p ++ nnn : Word).extractLsb' 12 4 = p := by
  ext i hi; simp only [BitVec.getElem_extractLsb', BitVec.getLsbD_append]; interval_cases i <;> simp

theorem nnn_nnn : (p ++ nnn : Word).extractLsb' 0 12 = nnn := by
  ext i hi; simp only [BitVec.getElem_extractLsb', BitVec.getLsbD_append]; interval_cases i <;> simp

theorem n1_xkk : (p ++ x ++ kk : Word).extractLsb' 12 4 = p := by
  ext i hi; simp only [BitVec.getElem_extractLsb', BitVec.getLsbD_append]; interval_cases i <;> simp

theorem x_xkk : (p ++ x ++ kk : Word).extractLsb' 8 4 = x := by
  ext i hi; simp only [BitVec.getElem_extractLsb', BitVec.getLsbD_append]; interval_cases i <;> simp

theorem kk_xkk : (p ++ x ++ kk : Word).extractLsb' 0 8 = kk := by
  ext i hi; simp only [BitVec.getElem_extractLsb', BitVec.getLsbD_append]; interval_cases i <;> simp

theorem n1_xyn : (p ++ x ++ y ++ n : Word).extractLsb' 12 4 = p := by
  ext i hi; simp only [BitVec.getElem_extractLsb', BitVec.getLsbD_append]; interval_cases i <;> simp

theorem x_xyn : (p ++ x ++ y ++ n : Word).extractLsb' 8 4 = x := by
  ext i hi; simp only [BitVec.getElem_extractLsb', BitVec.getLsbD_append]; interval_cases i <;> simp

theorem y_xyn : (p ++ x ++ y ++ n : Word).extractLsb' 4 4 = y := by
  ext i hi; simp only [BitVec.getElem_extractLsb', BitVec.getLsbD_append]; interval_cases i <;> simp

theorem n_xyn : (p ++ x ++ y ++ n : Word).extractLsb' 0 4 = n := by
  ext i hi; simp only [BitVec.getElem_extractLsb', BitVec.getLsbD_append]; interval_cases i <;> simp

theorem mask_nnn : (p ++ nnn : Word) &&& 0xF000 = p ++ (0 : Addr12) := by
  ext i hi; simp only [BitVec.getElem_and, BitVec.getElem_append]; interval_cases i <;> simp

theorem mask_xkk : (p ++ x ++ kk : Word) &&& 0xF000 = p ++ (0 : RegIx) ++ (0 : Byte) := by
  ext i hi; simp only [BitVec.getElem_and, BitVec.getElem_append]; interval_cases i <;> simp

theorem mask_x : (p ++ x ++ kk : Word) &&& 0xF0FF = p ++ (0 : RegIx) ++ kk := by
  ext i hi; simp only [BitVec.getElem_and, BitVec.getElem_append]; interval_cases i <;> simp

theorem mask_xy : (p ++ x ++ y ++ n : Word) &&& 0xF00F = p ++ (0 : RegIx) ++ (0 : RegIx) ++ n := by
  ext i hi; simp only [BitVec.getElem_and, BitVec.getElem_append]; interval_cases i <;> simp

theorem mask_xyn : (p ++ x ++ y ++ n : Word) &&& 0xF000 = p ++ (0 : RegIx) ++ (0 : RegIx) ++ (0 : BitVec 4) := by
  ext i hi; simp only [BitVec.getElem_and, BitVec.getElem_append]; interval_cases i <;> simp

/-- A word is its four nibbles. -/
theorem word_eq_nibbles (w : Word) :
    w = w.extractLsb' 12 4 ++ w.extractLsb' 8 4 ++ w.extractLsb' 4 4 ++ w.extractLsb' 0 4 := by
  apply BitVec.eq_of_getLsbD_eq
  intro i hi
  simp only [BitVec.getLsbD_append, BitVec.getLsbD_extractLsb']
  interval_cases i <;> simp

/-! ### Bytes -/

@[simp] theorem wordOfBytes_bytesOfWord (w : Word) :
    wordOfBytes (bytesOfWord w).1 (bytesOfWord w).2 = w := by
  apply BitVec.eq_of_getLsbD_eq
  intro i hi
  simp only [wordOfBytes, bytesOfWord, BitVec.getLsbD_append, BitVec.getLsbD_extractLsb']
  interval_cases i <;> simp

theorem decode_encode_eq (i : Instr) (rest : List Byte) :
    decode (encode i ++ rest) = .ok (decodeWord (encodeWord i), rest) := by
  simp [decode, encode]

/-! ### The opcode map -/

/-- Two rows conflict when no word can fit both: their fixed bits differ somewhere both fix. -/
def OpcodeRow.conflicts (a b : OpcodeRow) : Bool := a.value &&& b.mask != b.value &&& a.mask

theorem OpcodeRow.conflicts_sound {a b : OpcodeRow} (h : a.conflicts b = true) (w : Word) :
    ¬ (a.fits w = true ∧ b.fits w = true) := by
  rintro ⟨ha, hb⟩
  simp only [OpcodeRow.fits, beq_iff_eq] at ha hb
  simp only [OpcodeRow.conflicts, bne_iff_ne, ne_eq] at h
  apply h
  rw [← ha, ← hb, BitVec.and_assoc, BitVec.and_assoc, BitVec.and_comm a.mask b.mask]

/-- "The 32 patterns other than 00E0, 00EE and 0nnn are pairwise disjoint" (R53). -/
theorem patterns_pairwise_disjoint :
    ((opcodeRows.drop 3).take 32).Pairwise fun a b => ∀ w : Word, ¬ (a.fits w = true ∧ b.fits w = true) :=
  List.Pairwise.imp (fun h w => OpcodeRow.conflicts_sound h w)
    (by decide : ((opcodeRows.drop 3).take 32).Pairwise fun a b => a.conflicts b = true)

theorem patterns_count : ((opcodeRows.drop 3).take 32).length = 32 ∧ opcodeRows.length = 36 := by decide

end Sys2Proof
end

