-- ==== Sys2Proof/Laws/Memory.lean ====
section
/-! SUPPORT. The laws of memory: a read after a write, and that every operation keeps the canonical form. -/

namespace Sys2Proof.Machine

@[simp] theorem Memory.read_nil (a : Nat) : Memory.read [] a = unlistedByte a := rfl

/-- Below the lowest listed address nothing is listed. -/
theorem Memory.read_below {m : Memory} {lo a : Nat} (h : m.wfFrom lo = true) (ha : a < lo) :
    m.read a = unlistedByte a := by
  induction m generalizing lo with
  | nil => rfl
  | cons c m ih =>
    obtain ⟨b, u⟩ := c
    simp only [Memory.wfFrom, Bool.and_eq_true, decide_eq_true_eq] at h
    rw [Memory.read, if_neg (by omega)]
    exact ih h.2 (by omega)

theorem Memory.wfFrom_mono {m : Memory} {lo lo' : Nat} (h : m.wfFrom lo = true) (hl : lo' ≤ lo) :
    m.wfFrom lo' = true := by
  cases m with
  | nil => rfl
  | cons c m =>
    simp only [Memory.wfFrom, Bool.and_eq_true, decide_eq_true_eq] at h ⊢
    exact ⟨⟨⟨by omega, h.1.1.2⟩, h.1.2⟩, h.2⟩

theorem Memory.read_consCell {m : Memory} {a : Nat} (v : Byte) (h : m.wfFrom (a + 1) = true) (c : Nat) :
    (Memory.consCell a v m).read c = if a = c then v else m.read c := by
  unfold Memory.consCell
  split
  next hv =>
    split
    next hc => rw [← hc, Memory.read_below h (by omega), hv]
    next => rfl
  next => rfl

theorem Memory.wfFrom_consCell {m : Memory} {a lo : Nat} (v : Byte) (h : m.wfFrom (a + 1) = true)
    (hlo : lo ≤ a) (ha : a < Config.memSize) : (Memory.consCell a v m).wfFrom lo = true := by
  unfold Memory.consCell
  split
  next => exact Memory.wfFrom_mono h (by omega)
  next hv => simp [Memory.wfFrom, hlo, ha, hv, h]

/-- What a read gives after a write, from any lower bound of the listed addresses. -/
theorem Memory.read_write_from {m : Memory} {lo : Nat} (h : m.wfFrom lo = true) (a : Nat) (v : Byte)
    (c : Nat) : (m.write a v).read c = if a = c then v else m.read c := by
  induction m generalizing lo with
  | nil => exact Memory.read_consCell v rfl c
  | cons d m ih =>
    obtain ⟨b, u⟩ := d
    have h' := h
    simp only [Memory.wfFrom, Bool.and_eq_true, decide_eq_true_eq] at h
    unfold Memory.write
    split
    next hab =>
      refine Memory.read_consCell v ?_ c
      simp only [Memory.wfFrom, Bool.and_eq_true, decide_eq_true_eq]
      exact ⟨⟨⟨by omega, h.1.1.2⟩, h.1.2⟩, h.2⟩
    next =>
      split
      next hab =>
        subst hab
        rw [Memory.read_consCell v h.2]
        simp only [Memory.read]
        split <;> rfl
      next hab =>
        simp only [Memory.read, ih h.2]
        split
        next hbc => rw [if_neg (by omega)]
        next => rfl

/-- A read after a write: the value at the address written, and as before everywhere else. -/
theorem Memory.read_write {m : Memory} (h : m.wf = true) (a : Nat) (v : Byte) (c : Nat) :
    (m.write a v).read c = if a = c then v else m.read c :=
  Memory.read_write_from h a v c

theorem Memory.wfFrom_write {m : Memory} {lo a : Nat} (h : m.wfFrom lo = true) (hlo : lo ≤ a)
    (ha : a < Config.memSize) (v : Byte) : (m.write a v).wfFrom lo = true := by
  induction m generalizing lo with
  | nil => exact Memory.wfFrom_consCell v rfl hlo ha
  | cons d m ih =>
    obtain ⟨b, u⟩ := d
    simp only [Memory.wfFrom, Bool.and_eq_true, decide_eq_true_eq] at h
    unfold Memory.write
    split
    next hab =>
      refine Memory.wfFrom_consCell v ?_ hlo ha
      simp only [Memory.wfFrom, Bool.and_eq_true, decide_eq_true_eq]
      exact ⟨⟨⟨by omega, h.1.1.2⟩, h.1.2⟩, h.2⟩
    next =>
      split
      next hab => subst hab; exact Memory.wfFrom_consCell v h.2 hlo ha
      next hab =>
        simp only [Memory.wfFrom, Bool.and_eq_true, decide_eq_true_eq]
        exact ⟨h.1, ih h.2 (by omega)⟩

/-- A write inside memory keeps the canonical form. -/
theorem Memory.wf_write {m : Memory} (h : m.wf = true) {a : Nat} (ha : a < Config.memSize) (v : Byte) :
    (m.write a v).wf = true :=
  Memory.wfFrom_write h (by omega) ha v

/-- A block write inside memory keeps the canonical form. -/
theorem Memory.wf_writeList {m : Memory} (h : m.wf = true) (vs : List Byte) {a : Nat}
    (ha : a + vs.length ≤ Config.memSize) : (m.writeList a vs).wf = true := by
  induction vs generalizing m a with
  | nil => exact h
  | cons v vs ih =>
    simp only [List.length_cons] at ha
    exact ih (Memory.wf_write h (by omega) v) (by omega)

/-- Memory as reset has it is canonical. -/
theorem Memory.wf_reset : State.reset.mem.wf = true := rfl

end Sys2Proof.Machine
end

