-- ==== Sys2Proof/Laws/State.lean ====
section
/-! SUPPORT. The fields of a state after each one-field update: one lemma per field, all by rfl, so that no
proof unfolds a record update. -/

namespace Sys2Proof.Machine

variable (s : State)

/-! ### setV -/

@[simp] theorem State.setV_v (r : RegIx) (b : Byte) : (s.setV r b).v = s.v.set r.toNat b r.isLt := rfl
@[simp] theorem State.setV_i (r : RegIx) (b : Byte) : (s.setV r b).i = s.i := rfl
@[simp] theorem State.setV_pc (r : RegIx) (b : Byte) : (s.setV r b).pc = s.pc := rfl
@[simp] theorem State.setV_sp (r : RegIx) (b : Byte) : (s.setV r b).sp = s.sp := rfl
@[simp] theorem State.setV_stack (r : RegIx) (b : Byte) : (s.setV r b).stack = s.stack := rfl
@[simp] theorem State.setV_dt (r : RegIx) (b : Byte) : (s.setV r b).dt = s.dt := rfl
@[simp] theorem State.setV_st (r : RegIx) (b : Byte) : (s.setV r b).st = s.st := rfl
@[simp] theorem State.setV_fb (r : RegIx) (b : Byte) : (s.setV r b).fb = s.fb := rfl
@[simp] theorem State.setV_key (r : RegIx) (b : Byte) : (s.setV r b).key = s.key := rfl
@[simp] theorem State.setV_wait (r : RegIx) (b : Byte) : (s.setV r b).wait = s.wait := rfl
@[simp] theorem State.setV_mem (r : RegIx) (b : Byte) : (s.setV r b).mem = s.mem := rfl
@[simp] theorem State.setV_status (r : RegIx) (b : Byte) : (s.setV r b).status = s.status := rfl
@[simp] theorem State.setV_output (r : RegIx) (b : Byte) : (s.setV r b).output = s.output := rfl
@[simp] theorem State.setV_params (r : RegIx) (b : Byte) : (s.setV r b).params = s.params := rfl
@[simp] theorem State.setV_rand8 (r : RegIx) (b : Byte) : (s.setV r b).rand8 = s.rand8 := rfl
@[simp] theorem State.setV_inputs (r : RegIx) (b : Byte) : (s.setV r b).inputs = s.inputs := rfl
@[simp] theorem State.setV_freeIndex (r : RegIx) (b : Byte) : (s.setV r b).freeIndex = s.freeIndex := rfl

/-! ### setFlag -/

@[simp] theorem State.setFlag_v (b : Byte) : (s.setFlag b).v = s.v.set regF.toNat b regF.isLt := rfl
@[simp] theorem State.setFlag_i (b : Byte) : (s.setFlag b).i = s.i := rfl
@[simp] theorem State.setFlag_pc (b : Byte) : (s.setFlag b).pc = s.pc := rfl
@[simp] theorem State.setFlag_sp (b : Byte) : (s.setFlag b).sp = s.sp := rfl
@[simp] theorem State.setFlag_stack (b : Byte) : (s.setFlag b).stack = s.stack := rfl
@[simp] theorem State.setFlag_dt (b : Byte) : (s.setFlag b).dt = s.dt := rfl
@[simp] theorem State.setFlag_st (b : Byte) : (s.setFlag b).st = s.st := rfl
@[simp] theorem State.setFlag_fb (b : Byte) : (s.setFlag b).fb = s.fb := rfl
@[simp] theorem State.setFlag_key (b : Byte) : (s.setFlag b).key = s.key := rfl
@[simp] theorem State.setFlag_wait (b : Byte) : (s.setFlag b).wait = s.wait := rfl
@[simp] theorem State.setFlag_mem (b : Byte) : (s.setFlag b).mem = s.mem := rfl
@[simp] theorem State.setFlag_status (b : Byte) : (s.setFlag b).status = s.status := rfl
@[simp] theorem State.setFlag_output (b : Byte) : (s.setFlag b).output = s.output := rfl
@[simp] theorem State.setFlag_params (b : Byte) : (s.setFlag b).params = s.params := rfl
@[simp] theorem State.setFlag_rand8 (b : Byte) : (s.setFlag b).rand8 = s.rand8 := rfl
@[simp] theorem State.setFlag_inputs (b : Byte) : (s.setFlag b).inputs = s.inputs := rfl
@[simp] theorem State.setFlag_freeIndex (b : Byte) : (s.setFlag b).freeIndex = s.freeIndex := rfl

/-! ### setI -/

@[simp] theorem State.setI_v (w : Word) : (s.setI w).v = s.v := rfl
@[simp] theorem State.setI_i (w : Word) : (s.setI w).i = w := rfl
@[simp] theorem State.setI_pc (w : Word) : (s.setI w).pc = s.pc := rfl
@[simp] theorem State.setI_sp (w : Word) : (s.setI w).sp = s.sp := rfl
@[simp] theorem State.setI_stack (w : Word) : (s.setI w).stack = s.stack := rfl
@[simp] theorem State.setI_dt (w : Word) : (s.setI w).dt = s.dt := rfl
@[simp] theorem State.setI_st (w : Word) : (s.setI w).st = s.st := rfl
@[simp] theorem State.setI_fb (w : Word) : (s.setI w).fb = s.fb := rfl
@[simp] theorem State.setI_key (w : Word) : (s.setI w).key = s.key := rfl
@[simp] theorem State.setI_wait (w : Word) : (s.setI w).wait = s.wait := rfl
@[simp] theorem State.setI_mem (w : Word) : (s.setI w).mem = s.mem := rfl
@[simp] theorem State.setI_status (w : Word) : (s.setI w).status = s.status := rfl
@[simp] theorem State.setI_output (w : Word) : (s.setI w).output = s.output := rfl
@[simp] theorem State.setI_params (w : Word) : (s.setI w).params = s.params := rfl
@[simp] theorem State.setI_rand8 (w : Word) : (s.setI w).rand8 = s.rand8 := rfl
@[simp] theorem State.setI_inputs (w : Word) : (s.setI w).inputs = s.inputs := rfl
@[simp] theorem State.setI_freeIndex (w : Word) : (s.setI w).freeIndex = s.freeIndex := rfl

/-! ### setPc -/

@[simp] theorem State.setPc_v (w : Word) : (s.setPc w).v = s.v := rfl
@[simp] theorem State.setPc_i (w : Word) : (s.setPc w).i = s.i := rfl
@[simp] theorem State.setPc_pc (w : Word) : (s.setPc w).pc = w := rfl
@[simp] theorem State.setPc_sp (w : Word) : (s.setPc w).sp = s.sp := rfl
@[simp] theorem State.setPc_stack (w : Word) : (s.setPc w).stack = s.stack := rfl
@[simp] theorem State.setPc_dt (w : Word) : (s.setPc w).dt = s.dt := rfl
@[simp] theorem State.setPc_st (w : Word) : (s.setPc w).st = s.st := rfl
@[simp] theorem State.setPc_fb (w : Word) : (s.setPc w).fb = s.fb := rfl
@[simp] theorem State.setPc_key (w : Word) : (s.setPc w).key = s.key := rfl
@[simp] theorem State.setPc_wait (w : Word) : (s.setPc w).wait = s.wait := rfl
@[simp] theorem State.setPc_mem (w : Word) : (s.setPc w).mem = s.mem := rfl
@[simp] theorem State.setPc_status (w : Word) : (s.setPc w).status = s.status := rfl
@[simp] theorem State.setPc_output (w : Word) : (s.setPc w).output = s.output := rfl
@[simp] theorem State.setPc_params (w : Word) : (s.setPc w).params = s.params := rfl
@[simp] theorem State.setPc_rand8 (w : Word) : (s.setPc w).rand8 = s.rand8 := rfl
@[simp] theorem State.setPc_inputs (w : Word) : (s.setPc w).inputs = s.inputs := rfl
@[simp] theorem State.setPc_freeIndex (w : Word) : (s.setPc w).freeIndex = s.freeIndex := rfl

/-! ### setSp -/

@[simp] theorem State.setSp_v (k : BitVec 4) : (s.setSp k).v = s.v := rfl
@[simp] theorem State.setSp_i (k : BitVec 4) : (s.setSp k).i = s.i := rfl
@[simp] theorem State.setSp_pc (k : BitVec 4) : (s.setSp k).pc = s.pc := rfl
@[simp] theorem State.setSp_sp (k : BitVec 4) : (s.setSp k).sp = k := rfl
@[simp] theorem State.setSp_stack (k : BitVec 4) : (s.setSp k).stack = s.stack := rfl
@[simp] theorem State.setSp_dt (k : BitVec 4) : (s.setSp k).dt = s.dt := rfl
@[simp] theorem State.setSp_st (k : BitVec 4) : (s.setSp k).st = s.st := rfl
@[simp] theorem State.setSp_fb (k : BitVec 4) : (s.setSp k).fb = s.fb := rfl
@[simp] theorem State.setSp_key (k : BitVec 4) : (s.setSp k).key = s.key := rfl
@[simp] theorem State.setSp_wait (k : BitVec 4) : (s.setSp k).wait = s.wait := rfl
@[simp] theorem State.setSp_mem (k : BitVec 4) : (s.setSp k).mem = s.mem := rfl
@[simp] theorem State.setSp_status (k : BitVec 4) : (s.setSp k).status = s.status := rfl
@[simp] theorem State.setSp_output (k : BitVec 4) : (s.setSp k).output = s.output := rfl
@[simp] theorem State.setSp_params (k : BitVec 4) : (s.setSp k).params = s.params := rfl
@[simp] theorem State.setSp_rand8 (k : BitVec 4) : (s.setSp k).rand8 = s.rand8 := rfl
@[simp] theorem State.setSp_inputs (k : BitVec 4) : (s.setSp k).inputs = s.inputs := rfl
@[simp] theorem State.setSp_freeIndex (k : BitVec 4) : (s.setSp k).freeIndex = s.freeIndex := rfl

/-! ### setSlot -/

@[simp] theorem State.setSlot_v (k : BitVec 4) (w : Word) : (s.setSlot k w).v = s.v := rfl
@[simp] theorem State.setSlot_i (k : BitVec 4) (w : Word) : (s.setSlot k w).i = s.i := rfl
@[simp] theorem State.setSlot_pc (k : BitVec 4) (w : Word) : (s.setSlot k w).pc = s.pc := rfl
@[simp] theorem State.setSlot_sp (k : BitVec 4) (w : Word) : (s.setSlot k w).sp = s.sp := rfl
@[simp] theorem State.setSlot_stack (k : BitVec 4) (w : Word) : (s.setSlot k w).stack = s.stack.set k.toNat w k.isLt := rfl
@[simp] theorem State.setSlot_dt (k : BitVec 4) (w : Word) : (s.setSlot k w).dt = s.dt := rfl
@[simp] theorem State.setSlot_st (k : BitVec 4) (w : Word) : (s.setSlot k w).st = s.st := rfl
@[simp] theorem State.setSlot_fb (k : BitVec 4) (w : Word) : (s.setSlot k w).fb = s.fb := rfl
@[simp] theorem State.setSlot_key (k : BitVec 4) (w : Word) : (s.setSlot k w).key = s.key := rfl
@[simp] theorem State.setSlot_wait (k : BitVec 4) (w : Word) : (s.setSlot k w).wait = s.wait := rfl
@[simp] theorem State.setSlot_mem (k : BitVec 4) (w : Word) : (s.setSlot k w).mem = s.mem := rfl
@[simp] theorem State.setSlot_status (k : BitVec 4) (w : Word) : (s.setSlot k w).status = s.status := rfl
@[simp] theorem State.setSlot_output (k : BitVec 4) (w : Word) : (s.setSlot k w).output = s.output := rfl
@[simp] theorem State.setSlot_params (k : BitVec 4) (w : Word) : (s.setSlot k w).params = s.params := rfl
@[simp] theorem State.setSlot_rand8 (k : BitVec 4) (w : Word) : (s.setSlot k w).rand8 = s.rand8 := rfl
@[simp] theorem State.setSlot_inputs (k : BitVec 4) (w : Word) : (s.setSlot k w).inputs = s.inputs := rfl
@[simp] theorem State.setSlot_freeIndex (k : BitVec 4) (w : Word) : (s.setSlot k w).freeIndex = s.freeIndex := rfl

/-! ### setDt -/

@[simp] theorem State.setDt_v (b : Byte) : (s.setDt b).v = s.v := rfl
@[simp] theorem State.setDt_i (b : Byte) : (s.setDt b).i = s.i := rfl
@[simp] theorem State.setDt_pc (b : Byte) : (s.setDt b).pc = s.pc := rfl
@[simp] theorem State.setDt_sp (b : Byte) : (s.setDt b).sp = s.sp := rfl
@[simp] theorem State.setDt_stack (b : Byte) : (s.setDt b).stack = s.stack := rfl
@[simp] theorem State.setDt_dt (b : Byte) : (s.setDt b).dt = b := rfl
@[simp] theorem State.setDt_st (b : Byte) : (s.setDt b).st = s.st := rfl
@[simp] theorem State.setDt_fb (b : Byte) : (s.setDt b).fb = s.fb := rfl
@[simp] theorem State.setDt_key (b : Byte) : (s.setDt b).key = s.key := rfl
@[simp] theorem State.setDt_wait (b : Byte) : (s.setDt b).wait = s.wait := rfl
@[simp] theorem State.setDt_mem (b : Byte) : (s.setDt b).mem = s.mem := rfl
@[simp] theorem State.setDt_status (b : Byte) : (s.setDt b).status = s.status := rfl
@[simp] theorem State.setDt_output (b : Byte) : (s.setDt b).output = s.output := rfl
@[simp] theorem State.setDt_params (b : Byte) : (s.setDt b).params = s.params := rfl
@[simp] theorem State.setDt_rand8 (b : Byte) : (s.setDt b).rand8 = s.rand8 := rfl
@[simp] theorem State.setDt_inputs (b : Byte) : (s.setDt b).inputs = s.inputs := rfl
@[simp] theorem State.setDt_freeIndex (b : Byte) : (s.setDt b).freeIndex = s.freeIndex := rfl

/-! ### setSt -/

@[simp] theorem State.setSt_v (b : Byte) : (s.setSt b).v = s.v := rfl
@[simp] theorem State.setSt_i (b : Byte) : (s.setSt b).i = s.i := rfl
@[simp] theorem State.setSt_pc (b : Byte) : (s.setSt b).pc = s.pc := rfl
@[simp] theorem State.setSt_sp (b : Byte) : (s.setSt b).sp = s.sp := rfl
@[simp] theorem State.setSt_stack (b : Byte) : (s.setSt b).stack = s.stack := rfl
@[simp] theorem State.setSt_dt (b : Byte) : (s.setSt b).dt = s.dt := rfl
@[simp] theorem State.setSt_st (b : Byte) : (s.setSt b).st = b := rfl
@[simp] theorem State.setSt_fb (b : Byte) : (s.setSt b).fb = s.fb := rfl
@[simp] theorem State.setSt_key (b : Byte) : (s.setSt b).key = s.key := rfl
@[simp] theorem State.setSt_wait (b : Byte) : (s.setSt b).wait = s.wait := rfl
@[simp] theorem State.setSt_mem (b : Byte) : (s.setSt b).mem = s.mem := rfl
@[simp] theorem State.setSt_status (b : Byte) : (s.setSt b).status = s.status := rfl
@[simp] theorem State.setSt_output (b : Byte) : (s.setSt b).output = s.output := rfl
@[simp] theorem State.setSt_params (b : Byte) : (s.setSt b).params = s.params := rfl
@[simp] theorem State.setSt_rand8 (b : Byte) : (s.setSt b).rand8 = s.rand8 := rfl
@[simp] theorem State.setSt_inputs (b : Byte) : (s.setSt b).inputs = s.inputs := rfl
@[simp] theorem State.setSt_freeIndex (b : Byte) : (s.setSt b).freeIndex = s.freeIndex := rfl

/-! ### setPixel -/

@[simp] theorem State.setPixel_v (row : Fin 32) (col : Fin 64) (p : Bool) : (s.setPixel row col p).v = s.v := rfl
@[simp] theorem State.setPixel_i (row : Fin 32) (col : Fin 64) (p : Bool) : (s.setPixel row col p).i = s.i := rfl
@[simp] theorem State.setPixel_pc (row : Fin 32) (col : Fin 64) (p : Bool) : (s.setPixel row col p).pc = s.pc := rfl
@[simp] theorem State.setPixel_sp (row : Fin 32) (col : Fin 64) (p : Bool) : (s.setPixel row col p).sp = s.sp := rfl
@[simp] theorem State.setPixel_stack (row : Fin 32) (col : Fin 64) (p : Bool) : (s.setPixel row col p).stack = s.stack := rfl
@[simp] theorem State.setPixel_dt (row : Fin 32) (col : Fin 64) (p : Bool) : (s.setPixel row col p).dt = s.dt := rfl
@[simp] theorem State.setPixel_st (row : Fin 32) (col : Fin 64) (p : Bool) : (s.setPixel row col p).st = s.st := rfl
@[simp] theorem State.setPixel_fb (row : Fin 32) (col : Fin 64) (p : Bool) : (s.setPixel row col p).fb = s.fb.set row (s.fb[row].set col p) := rfl
@[simp] theorem State.setPixel_key (row : Fin 32) (col : Fin 64) (p : Bool) : (s.setPixel row col p).key = s.key := rfl
@[simp] theorem State.setPixel_wait (row : Fin 32) (col : Fin 64) (p : Bool) : (s.setPixel row col p).wait = s.wait := rfl
@[simp] theorem State.setPixel_mem (row : Fin 32) (col : Fin 64) (p : Bool) : (s.setPixel row col p).mem = s.mem := rfl
@[simp] theorem State.setPixel_status (row : Fin 32) (col : Fin 64) (p : Bool) : (s.setPixel row col p).status = s.status := rfl
@[simp] theorem State.setPixel_output (row : Fin 32) (col : Fin 64) (p : Bool) : (s.setPixel row col p).output = s.output := rfl
@[simp] theorem State.setPixel_params (row : Fin 32) (col : Fin 64) (p : Bool) : (s.setPixel row col p).params = s.params := rfl
@[simp] theorem State.setPixel_rand8 (row : Fin 32) (col : Fin 64) (p : Bool) : (s.setPixel row col p).rand8 = s.rand8 := rfl
@[simp] theorem State.setPixel_inputs (row : Fin 32) (col : Fin 64) (p : Bool) : (s.setPixel row col p).inputs = s.inputs := rfl
@[simp] theorem State.setPixel_freeIndex (row : Fin 32) (col : Fin 64) (p : Bool) : (s.setPixel row col p).freeIndex = s.freeIndex := rfl

/-! ### clearFb -/

@[simp] theorem State.clearFb_v : s.clearFb.v = s.v := rfl
@[simp] theorem State.clearFb_i : s.clearFb.i = s.i := rfl
@[simp] theorem State.clearFb_pc : s.clearFb.pc = s.pc := rfl
@[simp] theorem State.clearFb_sp : s.clearFb.sp = s.sp := rfl
@[simp] theorem State.clearFb_stack : s.clearFb.stack = s.stack := rfl
@[simp] theorem State.clearFb_dt : s.clearFb.dt = s.dt := rfl
@[simp] theorem State.clearFb_st : s.clearFb.st = s.st := rfl
@[simp] theorem State.clearFb_fb : s.clearFb.fb = .replicate 32 (.replicate 64 false) := rfl
@[simp] theorem State.clearFb_key : s.clearFb.key = s.key := rfl
@[simp] theorem State.clearFb_wait : s.clearFb.wait = s.wait := rfl
@[simp] theorem State.clearFb_mem : s.clearFb.mem = s.mem := rfl
@[simp] theorem State.clearFb_status : s.clearFb.status = s.status := rfl
@[simp] theorem State.clearFb_output : s.clearFb.output = s.output := rfl
@[simp] theorem State.clearFb_params : s.clearFb.params = s.params := rfl
@[simp] theorem State.clearFb_rand8 : s.clearFb.rand8 = s.rand8 := rfl
@[simp] theorem State.clearFb_inputs : s.clearFb.inputs = s.inputs := rfl
@[simp] theorem State.clearFb_freeIndex : s.clearFb.freeIndex = s.freeIndex := rfl

/-! ### setWait -/

@[simp] theorem State.setWait_v (w : WaitMode) : (s.setWait w).v = s.v := rfl
@[simp] theorem State.setWait_i (w : WaitMode) : (s.setWait w).i = s.i := rfl
@[simp] theorem State.setWait_pc (w : WaitMode) : (s.setWait w).pc = s.pc := rfl
@[simp] theorem State.setWait_sp (w : WaitMode) : (s.setWait w).sp = s.sp := rfl
@[simp] theorem State.setWait_stack (w : WaitMode) : (s.setWait w).stack = s.stack := rfl
@[simp] theorem State.setWait_dt (w : WaitMode) : (s.setWait w).dt = s.dt := rfl
@[simp] theorem State.setWait_st (w : WaitMode) : (s.setWait w).st = s.st := rfl
@[simp] theorem State.setWait_fb (w : WaitMode) : (s.setWait w).fb = s.fb := rfl
@[simp] theorem State.setWait_key (w : WaitMode) : (s.setWait w).key = s.key := rfl
@[simp] theorem State.setWait_wait (w : WaitMode) : (s.setWait w).wait = w := rfl
@[simp] theorem State.setWait_mem (w : WaitMode) : (s.setWait w).mem = s.mem := rfl
@[simp] theorem State.setWait_status (w : WaitMode) : (s.setWait w).status = s.status := rfl
@[simp] theorem State.setWait_output (w : WaitMode) : (s.setWait w).output = s.output := rfl
@[simp] theorem State.setWait_params (w : WaitMode) : (s.setWait w).params = s.params := rfl
@[simp] theorem State.setWait_rand8 (w : WaitMode) : (s.setWait w).rand8 = s.rand8 := rfl
@[simp] theorem State.setWait_inputs (w : WaitMode) : (s.setWait w).inputs = s.inputs := rfl
@[simp] theorem State.setWait_freeIndex (w : WaitMode) : (s.setWait w).freeIndex = s.freeIndex := rfl

/-! ### writeMem -/

@[simp] theorem State.writeMem_v (a : Nat) (b : Byte) : (s.writeMem a b).v = s.v := rfl
@[simp] theorem State.writeMem_i (a : Nat) (b : Byte) : (s.writeMem a b).i = s.i := rfl
@[simp] theorem State.writeMem_pc (a : Nat) (b : Byte) : (s.writeMem a b).pc = s.pc := rfl
@[simp] theorem State.writeMem_sp (a : Nat) (b : Byte) : (s.writeMem a b).sp = s.sp := rfl
@[simp] theorem State.writeMem_stack (a : Nat) (b : Byte) : (s.writeMem a b).stack = s.stack := rfl
@[simp] theorem State.writeMem_dt (a : Nat) (b : Byte) : (s.writeMem a b).dt = s.dt := rfl
@[simp] theorem State.writeMem_st (a : Nat) (b : Byte) : (s.writeMem a b).st = s.st := rfl
@[simp] theorem State.writeMem_fb (a : Nat) (b : Byte) : (s.writeMem a b).fb = s.fb := rfl
@[simp] theorem State.writeMem_key (a : Nat) (b : Byte) : (s.writeMem a b).key = s.key := rfl
@[simp] theorem State.writeMem_wait (a : Nat) (b : Byte) : (s.writeMem a b).wait = s.wait := rfl
@[simp] theorem State.writeMem_mem (a : Nat) (b : Byte) : (s.writeMem a b).mem = s.mem.write a b := rfl
@[simp] theorem State.writeMem_status (a : Nat) (b : Byte) : (s.writeMem a b).status = s.status := rfl
@[simp] theorem State.writeMem_output (a : Nat) (b : Byte) : (s.writeMem a b).output = s.output := rfl
@[simp] theorem State.writeMem_params (a : Nat) (b : Byte) : (s.writeMem a b).params = s.params := rfl
@[simp] theorem State.writeMem_rand8 (a : Nat) (b : Byte) : (s.writeMem a b).rand8 = s.rand8 := rfl
@[simp] theorem State.writeMem_inputs (a : Nat) (b : Byte) : (s.writeMem a b).inputs = s.inputs := rfl
@[simp] theorem State.writeMem_freeIndex (a : Nat) (b : Byte) : (s.writeMem a b).freeIndex = s.freeIndex := rfl

/-! ### setOutput -/

@[simp] theorem State.setOutput_v (o : Output) : (s.setOutput o).v = s.v := rfl
@[simp] theorem State.setOutput_i (o : Output) : (s.setOutput o).i = s.i := rfl
@[simp] theorem State.setOutput_pc (o : Output) : (s.setOutput o).pc = s.pc := rfl
@[simp] theorem State.setOutput_sp (o : Output) : (s.setOutput o).sp = s.sp := rfl
@[simp] theorem State.setOutput_stack (o : Output) : (s.setOutput o).stack = s.stack := rfl
@[simp] theorem State.setOutput_dt (o : Output) : (s.setOutput o).dt = s.dt := rfl
@[simp] theorem State.setOutput_st (o : Output) : (s.setOutput o).st = s.st := rfl
@[simp] theorem State.setOutput_fb (o : Output) : (s.setOutput o).fb = s.fb := rfl
@[simp] theorem State.setOutput_key (o : Output) : (s.setOutput o).key = s.key := rfl
@[simp] theorem State.setOutput_wait (o : Output) : (s.setOutput o).wait = s.wait := rfl
@[simp] theorem State.setOutput_mem (o : Output) : (s.setOutput o).mem = s.mem := rfl
@[simp] theorem State.setOutput_status (o : Output) : (s.setOutput o).status = s.status := rfl
@[simp] theorem State.setOutput_output (o : Output) : (s.setOutput o).output = some o := rfl
@[simp] theorem State.setOutput_params (o : Output) : (s.setOutput o).params = s.params := rfl
@[simp] theorem State.setOutput_rand8 (o : Output) : (s.setOutput o).rand8 = s.rand8 := rfl
@[simp] theorem State.setOutput_inputs (o : Output) : (s.setOutput o).inputs = s.inputs := rfl
@[simp] theorem State.setOutput_freeIndex (o : Output) : (s.setOutput o).freeIndex = s.freeIndex := rfl

/-! ### takeFault -/

@[simp] theorem State.takeFault_v (f : Fault) : (s.takeFault f).v = s.v := rfl
@[simp] theorem State.takeFault_i (f : Fault) : (s.takeFault f).i = s.i := rfl
@[simp] theorem State.takeFault_pc (f : Fault) : (s.takeFault f).pc = s.pc := rfl
@[simp] theorem State.takeFault_sp (f : Fault) : (s.takeFault f).sp = s.sp := rfl
@[simp] theorem State.takeFault_stack (f : Fault) : (s.takeFault f).stack = s.stack := rfl
@[simp] theorem State.takeFault_dt (f : Fault) : (s.takeFault f).dt = s.dt := rfl
@[simp] theorem State.takeFault_st (f : Fault) : (s.takeFault f).st = s.st := rfl
@[simp] theorem State.takeFault_fb (f : Fault) : (s.takeFault f).fb = s.fb := rfl
@[simp] theorem State.takeFault_key (f : Fault) : (s.takeFault f).key = s.key := rfl
@[simp] theorem State.takeFault_wait (f : Fault) : (s.takeFault f).wait = s.wait := rfl
@[simp] theorem State.takeFault_mem (f : Fault) : (s.takeFault f).mem = s.mem := rfl
@[simp] theorem State.takeFault_status (f : Fault) : (s.takeFault f).status = .faulted f := rfl
@[simp] theorem State.takeFault_output (f : Fault) : (s.takeFault f).output = s.output := rfl
@[simp] theorem State.takeFault_params (f : Fault) : (s.takeFault f).params = s.params := rfl
@[simp] theorem State.takeFault_rand8 (f : Fault) : (s.takeFault f).rand8 = s.rand8 := rfl
@[simp] theorem State.takeFault_inputs (f : Fault) : (s.takeFault f).inputs = s.inputs := rfl
@[simp] theorem State.takeFault_freeIndex (f : Fault) : (s.takeFault f).freeIndex = s.freeIndex := rfl

end Sys2Proof.Machine
end

