-- ==== Sys2Proof/Laws/Ops.lean ====
section
/-! SUPPORT. What each shared operation of Machine/Ops.lean, Flags.lean and Operands.lean can do, said once. -/

namespace Sys2Proof.Machine

/-! ### Ends of a handler -/

section
variable {α β : Type}

@[simp] theorem andThen_next (a : α) (f : α → Result β) : andThen (.next a) f = f a := rfl
@[simp] theorem andThen_fault (r : Fault) (f : α → Result β) : andThen (.fault r) f = .fault r := rfl
@[simp] theorem andThen_refused (r : Refusal) (f : α → Result β) : andThen (.refused r) f = .refused r := rfl

theorem andThen_eq_next {o : Result α} {f : α → Result β} {b : β} (h : andThen o f = .next b) :
    ∃ a, o = .next a ∧ f a = .next b := by
  cases o with
  | next a => exact ⟨a, rfl, h⟩
  | fault r => cases h
  | refused r => cases h

theorem andThen_eq_fault {o : Result α} {f : α → Result β} {r : Fault} (h : andThen o f = .fault r) :
    o = .fault r ∨ ∃ a, o = .next a ∧ f a = .fault r := by
  cases o with
  | next a => exact .inr ⟨a, rfl, h⟩
  | fault r' => exact .inl (by cases h; rfl)
  | refused r' => cases h

theorem andThen_eq_refused {o : Result α} {f : α → Result β} {r : Refusal} (h : andThen o f = .refused r) :
    o = .refused r ∨ ∃ a, o = .next a ∧ f a = .refused r := by
  cases o with
  | next a => exact .inr ⟨a, rfl, h⟩
  | fault r' => cases h
  | refused r' => exact .inl (by cases h; rfl)

end

/-! ### Registers, slots and pixels -/

variable (s : State)

theorem State.readV_of_v {s t : State} (h : t.v = s.v) (r : RegIx) : t.readV r = s.readV r := by
  simp only [State.readV, h]

theorem State.slot_of_stack {s t : State} (h : t.stack = s.stack) (k : BitVec 4) : t.slot k = s.slot k := by
  simp only [State.slot, h]

theorem State.pixel_of_fb {s t : State} (h : t.fb = s.fb) (row : Fin 32) (col : Fin 64) :
    t.pixel row col = s.pixel row col := by
  simp only [State.pixel, h]

theorem State.readMem_of_mem {s t : State} (h : t.mem = s.mem) (a : Nat) : t.readMem a = s.readMem a := by
  simp only [State.readMem, h]

theorem State.readV_setV (r q : RegIx) (b : Byte) :
    (s.setV r b).readV q = if r = q then b else s.readV q := by
  simp only [State.readV, State.setV_v, Vector.getElem_set]
  split
  next h => rw [if_pos (BitVec.eq_of_toNat_eq h)]
  next h => rw [if_neg fun e => h (congrArg BitVec.toNat e)]

@[simp] theorem State.readV_setV_self (r : RegIx) (b : Byte) : (s.setV r b).readV r = b := by
  rw [State.readV_setV, if_pos rfl]

theorem State.readV_setV_ne {r q : RegIx} (h : r ≠ q) (b : Byte) : (s.setV r b).readV q = s.readV q := by
  rw [State.readV_setV, if_neg h]

theorem State.readV_setFlag (b : Byte) (q : RegIx) :
    (s.setFlag b).readV q = if regF = q then b else s.readV q :=
  s.readV_setV regF q b

theorem State.slot_setSlot (k q : BitVec 4) (w : Word) :
    (s.setSlot k w).slot q = if k = q then w else s.slot q := by
  simp only [State.slot, State.setSlot_stack, Vector.getElem_set]
  split
  next h => rw [if_pos (BitVec.eq_of_toNat_eq h)]
  next h => rw [if_neg fun e => h (congrArg BitVec.toNat e)]

theorem State.pixel_setPixel (row row' : Fin 32) (col col' : Fin 64) (p : Bool) :
    (s.setPixel row col p).pixel row' col' = if row = row' ∧ col = col' then p else s.pixel row' col' := by
  simp only [State.pixel, State.setPixel_fb, Fin.getElem_fin, Vector.getElem_set]
  by_cases hr : row = row'
  · subst hr
    by_cases hc : col = col'
    · subst hc; simp
    · have : (col : Nat) ≠ col' := fun e => hc (Fin.ext e)
      simp [hc, this]
  · have : (row : Nat) ≠ row' := fun e => hr (Fin.ext e)
    simp [hr, this]

@[simp] theorem State.pixel_clearFb (row : Fin 32) (col : Fin 64) : s.clearFb.pixel row col = false := by
  simp [State.pixel]

/-! ### The end of a cycle -/

@[simp] theorem countdown_toNat (b : Byte) : (countdown b).toNat = b.toNat - 1 := by
  unfold countdown
  split
  next h => simp [h]
  next h =>
    have : b.toNat ≠ 0 := fun e => h (BitVec.eq_of_toNat_eq e)
    have := b.isLt
    rw [BitVec.toNat_sub]
    simp
    omega

/-- The pc a PC action leaves. -/
def PcAction.target : PcAction → Word → Word
  | .advance, pc => pc + 2
  | .skip, pc => pc + 4
  | .jump a, _ => a
  | .wait, pc => pc

@[simp] theorem State.endCycle_eq (act : PcAction) (log : Option Word) :
    s.endCycle act log =
      { s with dt := countdown s.dt, st := countdown s.st, pc := act.target s.pc,
               output := some { fb := s.fb, soundActive := countdown s.st != 0, log := log } } := by
  cases act <;> rfl

theorem complete_eq (act : PcAction) : complete act s = .next (s.endCycle act none) := rfl

@[simp] theorem complete_ne_fault {act : PcAction} {s : State} {f : Fault} : complete act s ≠ .fault f := nofun

@[simp] theorem complete_ne_refused {act : PcAction} {s : State} {r : Refusal} : complete act s ≠ .refused r :=
  nofun

theorem unlessAliasRefused_runs {isAlias : Bool} {s : State} {r : Result State}
    (h : isAlias = false ∨ s.params.vfAlias = .sequential) : unlessAliasRefused isAlias s r = r := by
  unfold unlessAliasRefused
  rw [if_neg]
  rintro ⟨ha, hp⟩
  rcases h with h | h
  · rw [h] at ha; cases ha
  · rw [h] at hp; cases hp

theorem unlessAliasRefused_refuses {isAlias : Bool} {s : State} {r : Result State} (ha : isAlias = true)
    (hp : s.params.vfAlias = .refuse) : unlessAliasRefused isAlias s r = .refused (.vfAlias s.pc) :=
  if_pos ⟨ha, hp⟩

/-- A guarded handler either is the handler or refuses the alias case. -/
theorem unlessAliasRefused_cases (isAlias : Bool) (s : State) (r : Result State) :
    (unlessAliasRefused isAlias s r = r ∧ (isAlias = false ∨ s.params.vfAlias = .sequential)) ∨
    (unlessAliasRefused isAlias s r = .refused (.vfAlias s.pc) ∧ isAlias = true ∧ s.params.vfAlias = .refuse) := by
  cases isAlias with
  | false => exact .inl ⟨unlessAliasRefused_runs (.inl rfl), .inl rfl⟩
  | true =>
    cases hp : s.params.vfAlias with
    | sequential => exact .inl ⟨unlessAliasRefused_runs (.inr hp), .inr rfl⟩
    | refuse => exact .inr ⟨unlessAliasRefused_refuses rfl hp, rfl, rfl⟩

/-! ### Accesses -/

theorem loadByte_next {s : State} {a : Nat} (h : a < Config.memSize) : loadByte s a = .next (s.readMem a) :=
  if_pos h

theorem loadByte_fault {s : State} {a : Nat} (h : Config.memSize ≤ a) :
    loadByte s a = .fault (.memoryOutOfRange s.pc a) :=
  if_neg (by omega)

theorem storeByte_next {s : State} {a : Nat} (h : a < Config.memSize) (b : Byte) :
    storeByte s a b = .next (s.writeMem a b) :=
  if_pos h

theorem storeByte_fault {s : State} {a : Nat} (h : Config.memSize ≤ a) (b : Byte) :
    storeByte s a b = .fault (.memoryOutOfRange s.pc a) :=
  if_neg (by omega)

theorem fetchWord_next {s : State} (h : s.pc.toNat + 1 < Config.memSize) :
    fetchWord s = .next (wordOfBytes (s.readMem s.pc.toNat) (s.readMem (s.pc.toNat + 1))) :=
  if_pos h

theorem fetchWord_fault {s : State} (h : Config.memSize ≤ s.pc.toNat + 1) :
    fetchWord s = .fault (.fetchOutOfRange s.pc) :=
  if_neg (by omega)

theorem State.readMem_writeMem {s : State} (h : s.mem.wf = true) (a c : Nat) (b : Byte) :
    (s.writeMem a b).readMem c = if a = c then b else s.readMem c :=
  Memory.read_write h a b c

/-- Taking the inputs of a step leaves every field but the inputs as it was. -/
theorem State.takeInput_eq : ∃ key rand8 inputs freeIndex,
    s.takeInput = { s with key := key, rand8 := rand8, inputs := inputs, freeIndex := freeIndex } := by
  unfold State.takeInput
  split
  · exact ⟨_, _, _, _, rfl⟩
  · exact ⟨_, _, _, _, rfl⟩

/-! ### Key scan -/

theorem firstPressed_none {key : Keypad} : firstPressed key = none ↔ ∀ k : Fin 16, key[k] = false := by
  simp [firstPressed]

theorem firstPressed_some {key : Keypad} {k : Fin 16} (hk : key[k] = true)
    (hlow : ∀ j : Fin 16, j < k → key[j] = false) : firstPressed key = some k := by
  unfold firstPressed
  rw [List.find?_eq_some_iff_getElem]
  refine ⟨hk, k.val, by simp, by simp, fun j hj => ?_⟩
  simpa using hlow ⟨j, by omega⟩ hj

/-! ### Block transfers -/

theorem regOfNat_toNat {i : Nat} (h : i < 16) : (BitVec.ofNat 4 i).toNat = i := by
  rw [BitVec.toNat_ofNat]; omega

/-- A block store that ends has changed memory only, every address was in memory, and the canonical form is
kept. -/
theorem storeRegs_next {count i : Nat} {s t : State} (h : storeRegs count i s = .next t) :
    (∃ m, t = { s with mem := m }) ∧ (s.mem.wf = true → t.mem.wf = true) ∧
      (∀ k, k < count → s.dataAddr (i + k) < Config.memSize) := by
  induction count generalizing i s with
  | zero => cases h; exact ⟨⟨_, rfl⟩, id, by intro k hk; omega⟩
  | succ count ih =>
    obtain ⟨s1, h1, h2⟩ := andThen_eq_next h
    by_cases ha : s.dataAddr i < Config.memSize
    · rw [storeByte_next ha] at h1
      cases h1
      obtain ⟨⟨m, rfl⟩, hwf, hr⟩ := ih h2
      refine ⟨⟨m, rfl⟩, fun hw => hwf (Memory.wf_write hw ha _), fun k hk => ?_⟩
      cases k with
      | zero => exact ha
      | succ k => simpa [State.dataAddr, Nat.add_assoc, Nat.add_comm 1 k] using hr k (by omega)
    · rw [storeByte_fault (by omega)] at h1; cases h1

/-- A block store whose addresses are in memory ends; each byte is the register's, every other byte as
before. -/
theorem storeRegs_ends {count i : Nat} {s : State} (hw : s.mem.wf = true)
    (ha : ∀ k, k < count → s.dataAddr (i + k) < Config.memSize) :
    ∃ t, storeRegs count i s = .next t ∧
      ∀ a, t.readMem a = if s.dataAddr i ≤ a ∧ a < s.dataAddr (i + count)
        then s.readV (BitVec.ofNat 4 (a - s.i.toNat)) else s.readMem a := by
  induction count generalizing i s with
  | zero => exact ⟨s, rfl, fun a => by rw [if_neg]; simp only [State.dataAddr]; omega⟩
  | succ count ih =>
    have h0 : s.dataAddr i < Config.memSize := ha 0 (by omega)
    obtain ⟨t, ht, hr⟩ := ih (i := i + 1) (s := s.writeMem (s.dataAddr i) (s.readV (BitVec.ofNat 4 i)))
      (Memory.wf_write hw h0 _) (fun k hk => by
        have := ha (k + 1) (by omega)
        simpa [State.dataAddr, Nat.add_assoc, Nat.add_comm 1 k] using this)
    refine ⟨t, by rw [storeRegs, storeByte_next h0]; exact ht, fun a => ?_⟩
    rw [hr a, State.readMem_writeMem hw]
    have hi : ∀ k, (s.writeMem (s.dataAddr i) (s.readV (BitVec.ofNat 4 i))).dataAddr k = s.i.toNat + k := fun _ => rfl
    have hs : ∀ k, s.dataAddr k = s.i.toNat + k := fun _ => rfl
    by_cases h1 : a = s.i.toNat + i
    · rw [if_neg (by rw [hi, hi]; omega), if_pos (by rw [hs]; omega), if_pos (by rw [hs, hs]; omega)]
      congr
      omega
    · by_cases h2 : s.i.toNat + (i + 1) ≤ a ∧ a < s.i.toNat + (i + 1 + count)
      · rw [if_pos (by rw [hi, hi]; exact h2), if_pos (by rw [hs, hs]; omega)]
        rfl
      · rw [if_neg (by rw [hi, hi]; exact h2), if_neg (by rw [hs]; omega), if_neg (by rw [hs, hs]; omega)]

/-- A block store with an address out of memory reports the first one. -/
theorem storeRegs_fault {count i : Nat} {s : State} (hc : 0 < count)
    (ha : Config.memSize ≤ s.dataAddr (i + (count - 1))) :
    storeRegs count i s = .fault (.memoryOutOfRange s.pc (max (s.dataAddr i) Config.memSize)) := by
  induction count generalizing i s with
  | zero => omega
  | succ count ih =>
    by_cases h0 : s.dataAddr i < Config.memSize
    · have hc' : 0 < count := by
        rcases Nat.eq_zero_or_pos count with rfl | h
        · simp at ha; omega
        · exact h
      rw [storeRegs, storeByte_next h0]
      simp only [andThen_next]
      rw [ih hc' (by
        have : i + 1 + (count - 1) = i + (count + 1 - 1) := by omega
        rw [this]; exact ha)]
      simp only [State.dataAddr, State.writeMem_i, State.writeMem_pc] at h0 ⊢
      congr 2
      omega
    · rw [storeRegs, storeByte_fault (by omega)]
      simp only [andThen_fault]
      congr 2
      omega

/-- A block load that ends has changed the general registers only, and every address was in memory. -/
theorem loadRegs_next {count i : Nat} {s t : State} (h : loadRegs count i s = .next t) :
    (∃ v, t = { s with v := v }) ∧ (∀ k, k < count → s.dataAddr (i + k) < Config.memSize) := by
  induction count generalizing i s with
  | zero => cases h; exact ⟨⟨_, rfl⟩, by intro k hk; omega⟩
  | succ count ih =>
    obtain ⟨b, h1, h2⟩ := andThen_eq_next h
    by_cases ha : s.dataAddr i < Config.memSize
    · obtain ⟨⟨v, rfl⟩, hr⟩ := ih h2
      refine ⟨⟨v, rfl⟩, fun k hk => ?_⟩
      cases k with
      | zero => exact ha
      | succ k => simpa [State.dataAddr, Nat.add_assoc, Nat.add_comm 1 k] using hr k (by omega)
    · rw [loadByte_fault (by omega)] at h1; cases h1

/-- A block load whose addresses are in memory ends; each register of the block is its byte, every other as
before. -/
theorem loadRegs_ends {count i : Nat} {s : State} (hc : i + count ≤ 16)
    (ha : ∀ k, k < count → s.dataAddr (i + k) < Config.memSize) :
    ∃ t, loadRegs count i s = .next t ∧
      ∀ r : RegIx, t.readV r = if i ≤ r.toNat ∧ r.toNat < i + count then s.readMem (s.dataAddr r.toNat)
        else s.readV r := by
  induction count generalizing i s with
  | zero => exact ⟨s, rfl, fun r => by rw [if_neg (by omega)]⟩
  | succ count ih =>
    have h0 : s.dataAddr i < Config.memSize := ha 0 (by omega)
    obtain ⟨t, ht, hr⟩ := ih (i := i + 1) (s := s.setV (BitVec.ofNat 4 i) (s.readMem (s.dataAddr i)))
      (by omega) (fun k hk => by
        have := ha (k + 1) (by omega)
        simpa [State.dataAddr, Nat.add_assoc, Nat.add_comm 1 k] using this)
    refine ⟨t, by rw [loadRegs, loadByte_next h0]; exact ht, fun r => ?_⟩
    rw [hr r, State.readV_setV]
    by_cases h1 : BitVec.ofNat 4 i = r
    · have hri : r.toNat = i := by rw [← h1, regOfNat_toNat (by omega)]
      rw [if_neg (by omega), if_pos h1, if_pos (by omega), hri]
    · have hri : r.toNat ≠ i := fun e => h1 (BitVec.eq_of_toNat_eq (by rw [regOfNat_toNat (by omega), e]))
      by_cases h2 : i + 1 ≤ r.toNat ∧ r.toNat < i + 1 + count
      · rw [if_pos h2, if_pos (by omega)]
        rfl
      · rw [if_neg h2, if_neg h1, if_neg (by omega)]

/-- A block load with an address out of memory reports the first one. -/
theorem loadRegs_fault {count i : Nat} {s : State} (hc : 0 < count)
    (ha : Config.memSize ≤ s.dataAddr (i + (count - 1))) :
    loadRegs count i s = .fault (.memoryOutOfRange s.pc (max (s.dataAddr i) Config.memSize)) := by
  induction count generalizing i s with
  | zero => omega
  | succ count ih =>
    by_cases h0 : s.dataAddr i < Config.memSize
    · have hc' : 0 < count := by
        rcases Nat.eq_zero_or_pos count with rfl | h
        · simp at ha; omega
        · exact h
      rw [loadRegs, loadByte_next h0]
      simp only [andThen_next]
      rw [ih hc' (by
        have : i + 1 + (count - 1) = i + (count + 1 - 1) := by omega
        rw [this]; exact ha)]
      simp only [State.dataAddr, State.setV_i, State.setV_pc] at h0 ⊢
      congr 2
      omega
    · rw [loadRegs, loadByte_fault (by omega)]
      simp only [andThen_fault]
      congr 2
      omega

end Sys2Proof.Machine
end

