-- ==== Sys2Proof/Laws/Display.lean ====
section
/-! SUPPORT. What a draw does (43_display.md R92, R93): one sprite bit, one row, all rows. A draw touches each
pixel at most once, so the pixels and the flag can be read off the state before it. -/

namespace Sys2Proof.Machine

theorem spriteRow_val (Y : Byte) (r : Nat) : (spriteRow Y r).val = (Y.toNat + r) % 32 := rfl
theorem spriteCol_val (X : Byte) (j : Nat) : (spriteCol X j).val = (X.toNat + j) % 64 := rfl

/-- "at most 8 distinct columns, which is fewer than 64" (R93). -/
theorem spriteCol_inj {X : Byte} {j k : Nat} (hj : j < 8) (hk : k < 8) (h : spriteCol X j = spriteCol X k) :
    j = k := by
  have := congrArg Fin.val h
  rw [spriteCol_val, spriteCol_val] at this
  omega

/-- "at most 15 distinct rows, which is fewer than 32" (R93). -/
theorem spriteRow_inj {Y : Byte} {r k : Nat} (hr : r < 32) (hk : k < 32) (h : spriteRow Y r = spriteRow Y k) :
    r = k := by
  have := congrArg Fin.val h
  rw [spriteRow_val, spriteRow_val] at this
  omega

/-! ### Flag bytes -/

@[simp] theorem flagByte_false : flagByte false = 0 := rfl
@[simp] theorem flagByte_true : flagByte true = 1 := rfl

theorem flagByte_or (a b : Bool) : flagByte a ||| flagByte b = flagByte (a || b) := by
  cases a <;> cases b <;> rfl

theorem any_eq_of_mem {α : Type} {l : List α} {p q : α → Bool} (h : ∀ a ∈ l, p a = q a) :
    l.any p = l.any q := by
  induction l with
  | nil => rfl
  | cons a l ih => simp only [List.any_cons, h a (by simp), ih fun b hb => h b (by simp [hb])]

/-! ### One sprite bit -/

variable (X Y : Byte) (s : State)

theorem drawBit_pixel (bit : Bool) (row row' : Fin 32) (col col' : Fin 64) :
    (drawBit bit row col s).pixel row' col' =
      (s.pixel row' col' ^^ (decide (row = row' ∧ col = col') && bit)) := by
  rw [drawBit, State.pixel_setPixel]
  split
  next h => obtain ⟨rfl, rfl⟩ := h; simp
  next h => simp [h, State.pixel]

theorem drawBit_readV (bit : Bool) (row : Fin 32) (col : Fin 64) (q : RegIx) :
    (drawBit bit row col s).readV q =
      if regF = q then collisionFlag (s.readV regF) bit (s.pixel row col) else s.readV q := by
  rw [← State.readV_setFlag]; rfl

/-- What a draw may change: the general registers and the framebuffer, of the registers VF only. -/
structure DrawFrame (s t : State) : Prop where
  fields : ∃ v fb, t = { s with v := v, fb := fb }
  regs   : ∀ q, q ≠ regF → t.readV q = s.readV q

theorem DrawFrame.refl : DrawFrame s s := ⟨⟨_, _, rfl⟩, fun _ _ => rfl⟩

variable {s}

theorem DrawFrame.trans {t u : State} (h : DrawFrame s t) (h' : DrawFrame t u) : DrawFrame s u := by
  obtain ⟨⟨v, fb, rfl⟩, hr⟩ := h
  obtain ⟨⟨v', fb', rfl⟩, hr'⟩ := h'
  exact ⟨⟨_, _, rfl⟩, fun q hq => (hr' q hq).trans (hr q hq)⟩

theorem DrawFrame.readMem {t : State} (h : DrawFrame s t) (a : Nat) : t.readMem a = s.readMem a := by
  obtain ⟨⟨v, fb, rfl⟩, -⟩ := h; rfl

theorem DrawFrame.dataAddr {t : State} (h : DrawFrame s t) (k : Nat) : t.dataAddr k = s.dataAddr k := by
  obtain ⟨⟨v, fb, rfl⟩, -⟩ := h; rfl

theorem DrawFrame.pc {t : State} (h : DrawFrame s t) : t.pc = s.pc := by
  obtain ⟨⟨v, fb, rfl⟩, -⟩ := h; rfl

theorem DrawFrame.drawBit (bit : Bool) (row : Fin 32) (col : Fin 64) : DrawFrame s (drawBit bit row col s) :=
  ⟨⟨_, _, rfl⟩, fun q hq => by rw [drawBit_readV, if_neg fun e => hq e.symm]⟩

theorem DrawFrame.setFlag (b : Byte) : DrawFrame s (s.setFlag b) :=
  ⟨⟨_, _, rfl⟩, fun q hq => by rw [State.readV_setFlag, if_neg fun e => hq e.symm]⟩

/-! ### One row -/

/-- The sprite bits of a byte, among the columns `js`, that fall on screen column `col`. -/
def bitsOn (X b : Byte) (col : Fin 64) (js : List Nat) : Bool :=
  js.any fun j => decide (spriteCol X j = col) && spriteBit b j

/-- The sprite bits of a byte, among the columns `js`, that fall on a lit pixel of a screen row. -/
def bitsHit (X b : Byte) (s : State) (row : Fin 32) (js : List Nat) : Bool :=
  js.any fun j => spriteBit b j && s.pixel row (spriteCol X j)

variable (s)

/-- The loop of `drawRow` over any columns. -/
def drawBits (r : Nat) (b : Byte) (js : List Nat) : State :=
  js.foldl (fun t j => drawBit (spriteBit b j) (spriteRow Y r) (spriteCol X j) t) s

theorem drawRow_eq (r : Nat) (b : Byte) : drawRow X Y r b s = drawBits X Y s r b (List.range 8) := rfl

theorem drawBits_frame (r : Nat) (b : Byte) (js : List Nat) : DrawFrame s (drawBits X Y s r b js) := by
  induction js generalizing s with
  | nil => exact .refl s
  | cons j js ih => exact (DrawFrame.drawBit _ _ _).trans (ih _)

theorem bitsOn_eq_false {b : Byte} {j : Nat} {js : List Nat} (hj : j < 8) (h8 : ∀ k ∈ js, k < 8)
    (hn : j ∉ js) : bitsOn X b (spriteCol X j) js = false := by
  unfold bitsOn
  rw [List.any_eq_false]
  intro k hk
  have : spriteCol X k ≠ spriteCol X j := fun e => hn (spriteCol_inj (h8 k hk) hj e ▸ hk)
  simp [this]

theorem drawBits_pixel (r : Nat) (b : Byte) {js : List Nat} (h8 : ∀ k ∈ js, k < 8) (hn : js.Nodup)
    (row : Fin 32) (col : Fin 64) :
    (drawBits X Y s r b js).pixel row col =
      (s.pixel row col ^^ (decide (spriteRow Y r = row) && bitsOn X b col js)) := by
  induction js generalizing s with
  | nil => simp [drawBits, bitsOn]
  | cons j js ih =>
    rw [List.nodup_cons] at hn
    have hj : j < 8 := h8 j (by simp)
    have h8' : ∀ k ∈ js, k < 8 := fun k hk => h8 k (by simp [hk])
    rw [show drawBits X Y s r b (j :: js) = drawBits X Y _ r b js from rfl, ih _ h8' hn.2, drawBit_pixel]
    by_cases hr : spriteRow Y r = row
    · by_cases hc : spriteCol X j = col
      · subst hc
        rw [bitsOn_eq_false X hj h8' hn.1]
        have hf := bitsOn_eq_false X (b := b) hj h8' hn.1
        simp only [bitsOn] at hf
        simp [bitsOn, hr, hf]
      · simp [bitsOn, hr, hc]
    · simp [hr]

theorem drawBits_flag (r : Nat) (b : Byte) {js : List Nat} (h8 : ∀ k ∈ js, k < 8) (hn : js.Nodup) :
    (drawBits X Y s r b js).readV regF = s.readV regF ||| flagByte (bitsHit X b s (spriteRow Y r) js) := by
  induction js generalizing s with
  | nil => simp [drawBits, bitsHit]
  | cons j js ih =>
    rw [List.nodup_cons] at hn
    have hj : j < 8 := h8 j (by simp)
    have h8' : ∀ k ∈ js, k < 8 := fun k hk => h8 k (by simp [hk])
    rw [show drawBits X Y s r b (j :: js) = drawBits X Y _ r b js from rfl, ih _ h8' hn.2, drawBit_readV,
      if_pos rfl, collisionFlag, BitVec.or_assoc, flagByte_or]
    congr 2
    simp only [bitsHit, List.any_cons]
    congr 1
    apply any_eq_of_mem
    intro k hk
    rw [drawBit_pixel]
    have : spriteCol X j ≠ spriteCol X k := fun e => hn.1 (spriteCol_inj hj (h8' k hk) e ▸ hk)
    simp [this]

theorem drawRow_frame (r : Nat) (b : Byte) : DrawFrame s (drawRow X Y r b s) := drawBits_frame X Y s r b _

theorem drawRow_pixel (r : Nat) (b : Byte) (row : Fin 32) (col : Fin 64) :
    (drawRow X Y r b s).pixel row col =
      (s.pixel row col ^^ (decide (spriteRow Y r = row) && bitsOn X b col (List.range 8))) :=
  drawBits_pixel X Y s r b (by simp) List.nodup_range row col

theorem drawRow_flag (r : Nat) (b : Byte) : (drawRow X Y r b s).readV regF =
    s.readV regF ||| flagByte (bitsHit X b s (spriteRow Y r) (List.range 8)) :=
  drawBits_flag X Y s r b (by simp) List.nodup_range

/-! ### All rows -/

/-- The sprite bits of `count` rows from row `r` on that fall on a pixel. -/
def spriteOn (s : State) (X Y : Byte) (count r : Nat) (row : Fin 32) (col : Fin 64) : Bool :=
  (List.range' r count).any fun k =>
    decide (spriteRow Y k = row) && bitsOn X (s.readMem (s.dataAddr k)) col (List.range 8)

/-- The sprite bits of `count` rows from row `r` on that fall on lit pixels. -/
def spriteHits (s : State) (X Y : Byte) (count r : Nat) : Bool :=
  (List.range' r count).any fun k => bitsHit X (s.readMem (s.dataAddr k)) s (spriteRow Y k) (List.range 8)

variable {s}

/-- A draw that ends changed VF and the framebuffer only, and every sprite row was in memory. -/
theorem drawRows_next {count r : Nat} {t : State} (h : drawRows X Y count r s = .next t) :
    DrawFrame s t ∧ ∀ k, k < count → s.dataAddr (r + k) < Config.memSize := by
  induction count generalizing r s with
  | zero => cases h; exact ⟨.refl _, by intro k hk; omega⟩
  | succ count ih =>
    obtain ⟨b, h1, h2⟩ := andThen_eq_next h
    by_cases ha : s.dataAddr r < Config.memSize
    · have hf := drawRow_frame X Y s r b
      obtain ⟨hf', hr⟩ := ih h2
      refine ⟨hf.trans hf', fun k hk => ?_⟩
      cases k with
      | zero => exact ha
      | succ k =>
        have := hr k (by omega)
        rw [hf.dataAddr] at this
        simpa [State.dataAddr, Nat.add_assoc, Nat.add_comm 1 k] using this
    · rw [loadByte_fault (by omega)] at h1; cases h1

/-- A draw whose sprite rows are in memory ends, with the pixels and the collision flag of R93. -/
theorem drawRows_ends {count r : Nat} (hc : r + count ≤ 32)
    (ha : ∀ k, k < count → s.dataAddr (r + k) < Config.memSize) :
    ∃ t, drawRows X Y count r s = .next t ∧
      (∀ row col, t.pixel row col = (s.pixel row col ^^ spriteOn s X Y count r row col)) ∧
      t.readV regF = s.readV regF ||| flagByte (spriteHits s X Y count r) := by
  induction count generalizing r s with
  | zero => exact ⟨s, rfl, by simp [spriteOn], by simp [spriteHits]⟩
  | succ count ih =>
    have h0 : s.dataAddr r < Config.memSize := ha 0 (by omega)
    have hf := drawRow_frame X Y s r (s.readMem (s.dataAddr r))
    obtain ⟨t, ht, hp, hv⟩ := ih (r := r + 1) (s := drawRow X Y r (s.readMem (s.dataAddr r)) s) (by omega)
      (fun k hk => by
        have := ha (k + 1) (by omega)
        rw [hf.dataAddr]
        simpa [State.dataAddr, Nat.add_assoc, Nat.add_comm 1 k] using this)
    refine ⟨t, by rw [drawRows, loadByte_next h0]; exact ht, fun row col => ?_, ?_⟩
    · rw [hp, drawRow_pixel]
      simp only [spriteOn, hf.readMem, hf.dataAddr, List.range'_succ, List.any_cons]
      by_cases hr : spriteRow Y r = row
      · have hrest : ((List.range' (r + 1) count).any fun k =>
            decide (spriteRow Y k = row) && bitsOn X (s.readMem (s.dataAddr k)) col (List.range 8)) = false := by
          rw [List.any_eq_false]
          intro k hk
          rw [List.mem_range'_1] at hk
          have : spriteRow Y k ≠ row := fun e => by
            have := spriteRow_inj (by omega) (by omega) (hr.trans e.symm); omega
          simp [this]
        rw [hrest]; simp
      · simp [hr]
    · rw [hv, drawRow_flag, BitVec.or_assoc, flagByte_or]
      refine congrArg (fun c => s.readV regF ||| flagByte c) ?_
      simp only [spriteHits, hf.readMem, hf.dataAddr, List.range'_succ, List.any_cons]
      refine congrArg (bitsHit X (s.readMem (s.dataAddr r)) s (spriteRow Y r) (List.range 8) || ·) ?_
      apply any_eq_of_mem
      intro k hk
      rw [List.mem_range'_1] at hk
      simp only [bitsHit]
      apply any_eq_of_mem
      intro j _
      rw [drawRow_pixel]
      have : spriteRow Y r ≠ spriteRow Y k := fun e => by
        have := spriteRow_inj (by omega) (by omega) e; omega
      simp [this]

/-- A draw with a sprite row out of memory reports the first one. -/
theorem drawRows_fault {count r : Nat} (hc : 0 < count)
    (ha : Config.memSize ≤ s.dataAddr (r + (count - 1))) :
    drawRows X Y count r s = .fault (.memoryOutOfRange s.pc (max (s.dataAddr r) Config.memSize)) := by
  induction count generalizing r s with
  | zero => omega
  | succ count ih =>
    by_cases h0 : s.dataAddr r < Config.memSize
    · have hc' : 0 < count := by
        rcases Nat.eq_zero_or_pos count with rfl | h
        · simp at ha; omega
        · exact h
      have hf := drawRow_frame X Y s r (s.readMem (s.dataAddr r))
      rw [drawRows, loadByte_next h0]
      simp only [andThen_next]
      rw [ih hc' (by
        rw [hf.dataAddr, show r + 1 + (count - 1) = r + (count + 1 - 1) by omega]; exact ha), hf.pc, hf.dataAddr]
      simp only [State.dataAddr] at h0 ⊢
      congr 2
      omega
    · rw [drawRows, loadByte_fault (by omega)]
      simp only [andThen_fault]
      congr 2
      omega

end Sys2Proof.Machine
end

