-- ==== Sys2Proof/Laws/Exec.lean ====
section
/-! SUPPORT. What a next state of `exec`, and of `step`, can be: the handler's effect on the state, its PC action
and its log event, said once for every instruction. -/

namespace Sys2Proof.Machine

/-- What the handler of an instruction can make of a state when it ends, and the PC action it can return. -/
def HandlerEffect (i : Instr) (s u : State) (act : PcAction) : Prop :=
  match i with
  | .cls => ((s.params.cls = .noop ∧ u = s) ∨ (s.params.cls = .clear ∧ u = s.clearFb)) ∧ act = .advance
  | .ret => s.sp ≠ 0 ∧ u = s.popPc ∧ act = .advance
  | .call nnn => s.sp ≠ 15 ∧ u = s.push s.pc ∧ act = .jump (absTarget nnn)
  | .jp nnn => u = s ∧ act = .jump (absTarget nnn)
  | .jpV0 nnn => u = s ∧ act = .jump (s.offsetTarget nnn)
  | .sys _ | .unrecognised _ => u = s ∧ act = .advance
  | .seVxKk _ _ | .sneVxKk _ _ | .seVxVy _ _ | .sneVxVy _ _ | .skp _ | .sknp _ =>
    u = s ∧ (act = .advance ∨ act = .skip)
  | .ldVxKk x _ | .addVxKk x _ | .ldVxVy x _ | .orVxVy x _ | .andVxVy x _ | .xorVxVy x _ | .rnd x _
  | .ldVxDt x => (∃ b, u = s.setV x b) ∧ act = .advance
  | .addVxVy x _ => (∃ b f, u = (s.setV x b).setFlag f) ∧ act = .advance
  | .subVxVy x _ | .shrVxVy x _ | .subnVxVy x _ | .shlVxVy x _ =>
    (∃ f b, u = (s.setFlag f).setV x b) ∧ act = .advance
  | .ldI _ | .addIVx _ | .ldFVx _ => (∃ w, u = s.setI w) ∧ act = .advance
  | .ldBVx _ | .ldMemVx _ =>
    (∃ m, u = { s with mem := m }) ∧ (s.mem.wf = true → u.mem.wf = true) ∧ act = .advance
  | .ldVxMem x =>
    (∃ v, u = { s with v := v }) ∧ (∀ r : RegIx, x.toNat < r.toNat → u.readV r = s.readV r) ∧ act = .advance
  | .drw _ _ _ => DrawFrame s u ∧ act = .advance
  | .ldVxK x =>
    (u = s.setWait .waiting ∧ act = .wait) ∨ (u = s ∧ act = .wait) ∨
      ((∃ b, u = (s.setV x b).setWait .idle) ∧ act = .advance)
  | .ldDtVx x => u = s.setDt (s.readV x) ∧ act = .advance
  | .ldStVx x => u = s.setSt (s.readV x) ∧ act = .advance

/-- The log event of an instruction (R55). -/
def Instr.logEvent : Instr → Option Word
  | .unrecognised w => some w
  | _ => none

theorem complete_eq_next {act : PcAction} {s t : State} (h : complete act s = .next t) :
    t = s.endCycle act none := by
  cases h; rfl

theorem unlessAliasRefused_eq_next {isAlias : Bool} {s t : State} {r : Result State}
    (h : unlessAliasRefused isAlias s r = .next t) : r = .next t := by
  rcases unlessAliasRefused_cases isAlias s r with ⟨h1, -⟩ | ⟨h1, -⟩
  · rwa [h1] at h
  · rw [h1] at h; cases h

theorem skipIf_eq_next {c : Bool} {s t : State} (h : skipIf c s = .next t) :
    ∃ act, t = s.endCycle act none ∧ (act = .advance ∨ act = .skip) :=
  ⟨_, complete_eq_next h, by cases c <;> simp⟩

/-- Every next state of `exec` is the end of a cycle whose handler had one of the effects of its
instruction. -/
theorem exec_next_cases {i : Instr} {s t : State} (h : exec i s = .next t) :
    ∃ u act, t = u.endCycle act (Instr.logEvent i) ∧ HandlerEffect i s u act := by
  cases i <;> simp only [exec] at h
  case cls =>
    refine ⟨_, _, complete_eq_next h, ?_⟩
    cases hc : s.params.cls <;> simp [HandlerEffect, hc]
  case ret =>
    unfold execRet at h
    split at h
    next => cases h
    next hs => exact ⟨_, _, complete_eq_next h, hs, rfl, rfl⟩
  case call =>
    unfold execCall at h
    split at h
    next => cases h
    next hs => exact ⟨_, _, complete_eq_next h, hs, rfl, rfl⟩
  case jp | jpV0 | sys | ldDtVx | ldStVx => exact ⟨_, _, complete_eq_next h, rfl, rfl⟩
  case unrecognised => cases h; exact ⟨_, _, rfl, rfl, rfl⟩
  case seVxKk | sneVxKk | seVxVy | sneVxVy =>
    obtain ⟨act, ht, ha⟩ := skipIf_eq_next h
    exact ⟨_, _, ht, rfl, ha⟩
  case skp | sknp =>
    obtain ⟨b, -, h⟩ := andThen_eq_next h
    obtain ⟨act, ht, ha⟩ := skipIf_eq_next h
    exact ⟨_, _, ht, rfl, ha⟩
  case ldVxKk | addVxKk | ldVxVy | orVxVy | andVxVy | xorVxVy | rnd | ldVxDt =>
    exact ⟨_, _, complete_eq_next h, ⟨_, rfl⟩, rfl⟩
  case addVxVy => exact ⟨_, _, complete_eq_next h, ⟨_, _, rfl⟩, rfl⟩
  case subVxVy | shrVxVy | subnVxVy | shlVxVy =>
    exact ⟨_, _, complete_eq_next (unlessAliasRefused_eq_next h), ⟨_, _, rfl⟩, rfl⟩
  case ldI | ldFVx => exact ⟨_, _, complete_eq_next h, ⟨_, rfl⟩, rfl⟩
  case addIVx =>
    simp only [execAddIVx] at h
    split at h
    next => cases h
    next => exact ⟨_, _, complete_eq_next h, ⟨_, rfl⟩, rfl⟩
  case ldBVx =>
    simp only [execLdBVx] at h
    obtain ⟨u1, h1, h⟩ := andThen_eq_next h
    obtain ⟨u2, h2, h⟩ := andThen_eq_next h
    obtain ⟨u3, h3, h⟩ := andThen_eq_next h
    unfold storeByte at h1 h2 h3
    split at h1 <;> cases h1
    split at h2 <;> cases h2
    split at h3 <;> cases h3
    exact ⟨_, _, complete_eq_next h, ⟨_, rfl⟩, fun hw =>
      Memory.wf_write (Memory.wf_write (Memory.wf_write hw ‹_› _) ‹_› _) ‹_› _, rfl⟩
  case ldMemVx =>
    obtain ⟨u, h1, h⟩ := andThen_eq_next h
    obtain ⟨hm, hw, -⟩ := storeRegs_next h1
    exact ⟨_, _, complete_eq_next h, hm, hw, rfl⟩
  case ldVxMem x =>
    obtain ⟨u, h1, h⟩ := andThen_eq_next h
    obtain ⟨hv, ha⟩ := loadRegs_next h1
    obtain ⟨u', h2, hr⟩ := loadRegs_ends (by have := x.isLt; omega) ha
    rw [h1] at h2
    cases h2
    exact ⟨_, _, complete_eq_next h, hv, fun r hx => by rw [hr, if_neg (by omega)], rfl⟩
  case drw =>
    obtain ⟨u, h1, h⟩ := andThen_eq_next (unlessAliasRefused_eq_next h)
    exact ⟨_, _, complete_eq_next h, (DrawFrame.setFlag 0).trans (drawRows_next _ _ h1).1, rfl⟩
  case ldVxK =>
    unfold execLdVxK at h
    split at h
    next => exact ⟨_, _, complete_eq_next h, .inl ⟨rfl, rfl⟩⟩
    next =>
      split at h
      next => exact ⟨_, _, complete_eq_next h, .inr (.inr ⟨⟨_, rfl⟩, rfl⟩)⟩
      next => exact ⟨_, _, complete_eq_next h, .inr (.inl ⟨rfl, rfl⟩)⟩

/-- A step that answers a next state fetched inside memory and ran the word's instruction on the state with the
inputs of the step taken. -/
theorem step_next_cases {s t : State} (h : step s = .next t) :
    s.status = .running ∧ s.pc.toNat + 1 < Config.memSize ∧
      exec (decodeWord (wordOfBytes (s.readMem s.pc.toNat) (s.readMem (s.pc.toNat + 1)))) s.takeInput = .next t := by
  unfold step runStep at h
  split at h
  next hr =>
    refine ⟨hr, ?_⟩
    obtain ⟨w, h1, h2⟩ := andThen_eq_next h
    obtain ⟨k, r, inp, fi, ht⟩ := s.takeInput_eq
    rw [ht] at h1 h2 ⊢
    unfold fetchWord at h1
    split at h1
    next hp => cases h1; exact ⟨hp, h2⟩
    next => cases h1
  next => cases h

end Sys2Proof.Machine
end

