-- ==== Sys2Proof/Laws/PerInstr.lean ====
section
/-! SUPPORT. Facts about every instruction as syntax, one lemma per constructor. -/

namespace Sys2Proof.Laws

/-- The word a well-formed instruction is encoded as fits the row of 30_encoding.md R54 that its constructor
stands for. -/
def EncodedRow.Statement (i : Instr) : Prop := i.wellFormed = true → i.row.fits (encodeWord i) = true

/-- A word whose masked bits are the row's value fits it. -/
theorem fits_of_eq {r : OpcodeRow} {w v : Word} (h : w &&& r.mask = v) (hv : v = r.value) : r.fits w = true := by
  rw [OpcodeRow.fits, h, hv]; simp

namespace EncodedRow

theorem cls : Statement .cls := fun _ => rfl

theorem ret : Statement .ret := fun _ => rfl

theorem sys (nnn : Addr12) : Statement (.sys nnn) := fun _ => fits_of_eq (mask_nnn _ _) rfl

theorem jp (nnn : Addr12) : Statement (.jp nnn) := fun _ => fits_of_eq (mask_nnn _ _) rfl

theorem call (nnn : Addr12) : Statement (.call nnn) := fun _ => fits_of_eq (mask_nnn _ _) rfl

theorem seVxKk (x : RegIx) (kk : Byte) : Statement (.seVxKk x kk) := fun _ => fits_of_eq (mask_xkk _ _ _) rfl

theorem sneVxKk (x : RegIx) (kk : Byte) : Statement (.sneVxKk x kk) := fun _ => fits_of_eq (mask_xkk _ _ _) rfl

theorem seVxVy (x y : RegIx) : Statement (.seVxVy x y) := fun _ => fits_of_eq (mask_xy _ _ _ _) rfl

theorem ldVxKk (x : RegIx) (kk : Byte) : Statement (.ldVxKk x kk) := fun _ => fits_of_eq (mask_xkk _ _ _) rfl

theorem addVxKk (x : RegIx) (kk : Byte) : Statement (.addVxKk x kk) := fun _ => fits_of_eq (mask_xkk _ _ _) rfl

theorem ldVxVy (x y : RegIx) : Statement (.ldVxVy x y) := fun _ => fits_of_eq (mask_xy _ _ _ _) rfl

theorem orVxVy (x y : RegIx) : Statement (.orVxVy x y) := fun _ => fits_of_eq (mask_xy _ _ _ _) rfl

theorem andVxVy (x y : RegIx) : Statement (.andVxVy x y) := fun _ => fits_of_eq (mask_xy _ _ _ _) rfl

theorem xorVxVy (x y : RegIx) : Statement (.xorVxVy x y) := fun _ => fits_of_eq (mask_xy _ _ _ _) rfl

theorem addVxVy (x y : RegIx) : Statement (.addVxVy x y) := fun _ => fits_of_eq (mask_xy _ _ _ _) rfl

theorem subVxVy (x y : RegIx) : Statement (.subVxVy x y) := fun _ => fits_of_eq (mask_xy _ _ _ _) rfl

theorem shrVxVy (x y : RegIx) : Statement (.shrVxVy x y) := fun _ => fits_of_eq (mask_xy _ _ _ _) rfl

theorem subnVxVy (x y : RegIx) : Statement (.subnVxVy x y) := fun _ => fits_of_eq (mask_xy _ _ _ _) rfl

theorem shlVxVy (x y : RegIx) : Statement (.shlVxVy x y) := fun _ => fits_of_eq (mask_xy _ _ _ _) rfl

theorem sneVxVy (x y : RegIx) : Statement (.sneVxVy x y) := fun _ => fits_of_eq (mask_xy _ _ _ _) rfl

theorem ldI (nnn : Addr12) : Statement (.ldI nnn) := fun _ => fits_of_eq (mask_nnn _ _) rfl

theorem jpV0 (nnn : Addr12) : Statement (.jpV0 nnn) := fun _ => fits_of_eq (mask_nnn _ _) rfl

theorem rnd (x : RegIx) (kk : Byte) : Statement (.rnd x kk) := fun _ => fits_of_eq (mask_xkk _ _ _) rfl

theorem drw (x y : RegIx) (n : BitVec 4) : Statement (.drw x y n) := fun _ => fits_of_eq (mask_xyn _ _ _ _) rfl

theorem skp (x : RegIx) : Statement (.skp x) := fun _ => fits_of_eq (mask_x _ _ _) rfl

theorem sknp (x : RegIx) : Statement (.sknp x) := fun _ => fits_of_eq (mask_x _ _ _) rfl

theorem ldVxDt (x : RegIx) : Statement (.ldVxDt x) := fun _ => fits_of_eq (mask_x _ _ _) rfl

theorem ldVxK (x : RegIx) : Statement (.ldVxK x) := fun _ => fits_of_eq (mask_x _ _ _) rfl

theorem ldDtVx (x : RegIx) : Statement (.ldDtVx x) := fun _ => fits_of_eq (mask_x _ _ _) rfl

theorem ldStVx (x : RegIx) : Statement (.ldStVx x) := fun _ => fits_of_eq (mask_x _ _ _) rfl

theorem addIVx (x : RegIx) : Statement (.addIVx x) := fun _ => fits_of_eq (mask_x _ _ _) rfl

theorem ldFVx (x : RegIx) : Statement (.ldFVx x) := fun _ => fits_of_eq (mask_x _ _ _) rfl

theorem ldBVx (x : RegIx) : Statement (.ldBVx x) := fun _ => fits_of_eq (mask_x _ _ _) rfl

theorem ldMemVx (x : RegIx) : Statement (.ldMemVx x) := fun _ => fits_of_eq (mask_x _ _ _) rfl

theorem ldVxMem (x : RegIx) : Statement (.ldVxMem x) := fun _ => fits_of_eq (mask_x _ _ _) rfl

theorem unrecognised (w : Word) : Statement (.unrecognised w) := fun _ => by simp [Instr.row, OpcodeRow.fits]

end EncodedRow

end Sys2Proof.Laws
end

