-- ==== Sys2Proof/Tests/Slice0.lean ====
section
/-! SUPPORT. Tests: the decoder on words written out from 30_encoding.md R54, the well-formedness checks, one-step
vectors of 95_test_vectors.md (the source of each is named), and a witness for the hypotheses of each
statement. -/

namespace Sys2Proof.Tests
open Sys2Proof.Machine

/-! ### Well-formedness: each check refuses an ill-formed term -/

theorem test_wf_sys_is_not_cls : (Instr.sys 0x0E0).wellFormed = false := by decide
theorem test_wf_sys_is_not_ret : (Instr.sys 0x0EE).wellFormed = false := by decide
theorem test_wf_unrecognised_matches_no_pattern :
    (Instr.unrecognised 0x6122).wellFormed = false ∧ (Instr.unrecognised 0x5120).wellFormed = false ∧
    (Instr.unrecognised 0x8124).wellFormed = false ∧ (Instr.unrecognised 0x9230).wellFormed = false ∧
    (Instr.unrecognised 0xE59E).wellFormed = false ∧ (Instr.unrecognised 0xF165).wellFormed = false ∧
    (Instr.unrecognised 0x0123).wellFormed = false := by decide
theorem test_wf_well_formed_terms :
    (Instr.sys 0x123).wellFormed = true ∧ (Instr.unrecognised 0x812F).wellFormed = true := by decide

/-! ### Decoding: words written bit by bit from R54 -/

theorem test_decode_zero_group :
    decodeWord 0b0000000011100000 = .cls ∧ decodeWord 0b0000000011101110 = .ret ∧
    decodeWord 0b0000000100100011 = .sys 0x123 ∧ decodeWord 0b0000000011100001 = .sys 0x0E1 := by decide
theorem test_decode_jumps :
    decodeWord 0b0001000100010001 = .jp 0x111 ∧ decodeWord 0b0010101111001101 = .call 0xBCD ∧
    decodeWord 0b1011001100000001 = .jpV0 0x301 := by decide
theorem test_decode_skips :
    decodeWord 0b0011000101010011 = .seVxKk 0x1 0x53 ∧ decodeWord 0b0100000101010100 = .sneVxKk 0x1 0x54 ∧
    decodeWord 0b0101001000110000 = .seVxVy 0x2 0x3 ∧ decodeWord 0b1001001000110000 = .sneVxVy 0x2 0x3 := by decide
theorem test_decode_immediates :
    decodeWord 0b0110101001000010 = .ldVxKk 0xA 0x42 ∧ decodeWord 0b0111001100100000 = .addVxKk 0x3 0x20 ∧
    decodeWord 0b1100001100001111 = .rnd 0x3 0x0F := by decide
theorem test_decode_alu :
    decodeWord 0b1000000100100000 = .ldVxVy 0x1 0x2 ∧ decodeWord 0b1000000100100001 = .orVxVy 0x1 0x2 ∧
    decodeWord 0b1000000100100010 = .andVxVy 0x1 0x2 ∧ decodeWord 0b1000000100100011 = .xorVxVy 0x1 0x2 ∧
    decodeWord 0b1000000100100100 = .addVxVy 0x1 0x2 ∧ decodeWord 0b1000000100100101 = .subVxVy 0x1 0x2 ∧
    decodeWord 0b1000000100100110 = .shrVxVy 0x1 0x2 ∧ decodeWord 0b1000000100100111 = .subnVxVy 0x1 0x2 ∧
    decodeWord 0b1000000100101110 = .shlVxVy 0x1 0x2 := by decide
theorem test_decode_index_and_draw :
    decodeWord 0b1010001011110000 = .ldI 0x2F0 ∧ decodeWord 0b1101000000010101 = .drw 0x0 0x1 0x5 := by decide
theorem test_decode_keys_and_timers :
    decodeWord 0b1110010110011110 = .skp 0x5 ∧ decodeWord 0b1110010110100001 = .sknp 0x5 ∧
    decodeWord 0b1111001000001010 = .ldVxK 0x2 ∧ decodeWord 0b1111001100000111 = .ldVxDt 0x3 ∧
    decodeWord 0b1111000100010101 = .ldDtVx 0x1 ∧ decodeWord 0b1111000100011000 = .ldStVx 0x1 := by decide
theorem test_decode_index_memory :
    decodeWord 0b1111001000011110 = .addIVx 0x2 ∧ decodeWord 0b1111010000101001 = .ldFVx 0x4 ∧
    decodeWord 0b1111000100110011 = .ldBVx 0x1 ∧ decodeWord 0b1111001001010101 = .ldMemVx 0x2 ∧
    decodeWord 0b1111001001100101 = .ldVxMem 0x2 := by decide
theorem test_decode_unrecognised :
    decodeWord 0x5121 = .unrecognised 0x5121 ∧ decodeWord 0xFFFF = .unrecognised 0xFFFF ∧
    decodeWord 0xE000 = .unrecognised 0xE000 ∧ decodeWord 0x8128 = .unrecognised 0x8128 ∧
    decodeWord 0x812F = .unrecognised 0x812F ∧ decodeWord 0x9231 = .unrecognised 0x9231 := by decide
/-- Bytes: big-endian, and a lone byte is refused by name. -/
theorem test_decode_bytes :
    decode [0x81, 0x24, 0x07] = .ok (.addVxVy 0x1 0x2, [0x07]) ∧ decode [0x81] = .error .truncated ∧
    decode [] = .error .truncated ∧ encode (.addVxVy 0x1 0x2) = [0x81, 0x24] ∧
    decodeTableWord 16 0x8124 = some (.addVxVy 0x1 0x2) := by decide

/-! ### One step of a small state -/

/-- The step of a word placed at pc. -/
def stepWord (s : State) (w : Nat) : Result State := step (s.withFetchWord 16 w)

/-- The step answers a next state with a property. -/
def nextHas (o : Result State) (p : State → Bool) : Bool :=
  match o with
  | .next t => p t
  | .fault _ => false
  | .refused _ => false

/-- The step answers a fault. -/
def faultIs (o : Result State) (f : Fault) : Bool :=
  match o with
  | .next _ => false
  | .fault g => f == g
  | .refused _ => false

/-- The step is refused. -/
def isRefused (o : Result State) : Bool :=
  match o with
  | .next _ => false
  | .fault _ => false
  | .refused _ => true

/-- CLEAN_LAUNCH with two registers set. -/
def regs (x : RegIx) (a : Byte) (y : RegIx) (b : Byte) : State := (State.reset.setV x a).setV y b

/-- The keypad with the listed keys pressed. -/
def keysDown (ks : List (Fin 16)) : Keypad := Vector.ofFn fun k => ks.contains k

/-- T102, with P_CLS = clear; and T103, with noop. -/
theorem test_cls_clears : nextHas (stepWord (State.reset.setPixel 31 63 true) 0x00E0)
    (fun t => !t.pixel 31 63 && t.pc == 0x202) = true := by decide
theorem test_cls_noop : nextHas (stepWord
    { State.reset.setPixel 31 63 true with params := { Params.default with cls := .noop } } 0x00E0)
    (fun t => t.pixel 31 63 && t.pc == 0x202) = true := by decide
/-- T12, T13. -/
theorem test_ret : nextHas (stepWord ((State.reset.setSp 1).setSlot 1 0x300) 0x00EE)
    (fun t => t.sp == 0 && t.pc == 0x302) = true := by decide
theorem test_ret_underflow : faultIs (stepWord State.reset 0x00EE) (.stackUnderflow 0x200) = true := by decide
/-- T16. -/
theorem test_sys : nextHas (stepWord State.reset 0x0123)
    (fun t => t.pc == 0x202 && (t.output.map (·.log)) == some none) = true := by decide
/-- S1. -/
theorem test_jp : nextHas (stepWord State.reset 0x1111) (fun t => t.pc == 0x111) = true := by decide
/-- S2, T15. -/
theorem test_call : nextHas (stepWord State.reset 0x2111)
    (fun t => t.pc == 0x111 && t.sp == 1 && t.slot 1 == 0x200) = true := by decide
theorem test_call_overflow : faultIs (stepWord (State.reset.setSp 15) 0x2400) (.stackOverflow 0x200) = true := by decide
/-- S3, T21, T22, T23. -/
theorem test_se_kk : nextHas (stepWord (regs 1 0x53 2 0) 0x3153) (fun t => t.pc == 0x204) = true ∧
    nextHas (stepWord (regs 1 0x53 2 0) 0x3154) (fun t => t.pc == 0x202) = true := by decide
theorem test_sne_kk : nextHas (stepWord (regs 1 0x53 2 0) 0x4153) (fun t => t.pc == 0x202) = true ∧
    nextHas (stepWord (regs 1 0x53 2 0) 0x4154) (fun t => t.pc == 0x204) = true := by decide
/-- T24, T26, T27. -/
theorem test_se_xy : nextHas (stepWord (regs 2 7 3 7) 0x5230) (fun t => t.pc == 0x204) = true := by decide
theorem test_sne_xy : nextHas (stepWord (regs 2 7 3 8) 0x9230) (fun t => t.pc == 0x204) = true ∧
    nextHas (stepWord (regs 2 7 3 8) 0x9220) (fun t => t.pc == 0x202) = true := by decide
/-- T20. -/
theorem test_jp_v0_is_not_masked : nextHas (stepWord (regs 0 0xFF 1 0) 0xBFFF) (fun t => t.pc == 0x10FE) = true := by decide
/-- T3 and T1: the edge of memory. -/
theorem test_fetch_past_memory : faultIs (step (State.reset.setPc 0xFFF)) (.fetchOutOfRange 0xFFF) = true := by decide
theorem test_fetch_last_word : nextHas (stepWord (State.reset.setPc 0xFFE) 0x6122)
    (fun t => t.readV 1 == 0x22 && t.pc == 0x1000) = true := by decide
/-- T5: logged, and the timers count down. -/
theorem test_unrecognised : nextHas (stepWord ((State.reset.setDt 2).setSt 1) 0x5121)
    (fun t => t.pc == 0x202 && t.dt == 1 && t.st == 0
      && (t.output.map fun o => (o.log, o.soundActive)) == some (some 0x5121, false)) = true := by decide
/-- T29, T32, T33. -/
theorem test_ld_kk : nextHas (stepWord State.reset 0x6A42) (fun t => t.readV 0xA == 0x42) = true := by decide
theorem test_add_kk_wraps : nextHas (stepWord (regs 1 0xFF 0xF 0x55) 0x7101)
    (fun t => t.readV 1 == 0 && t.readV 0xF == 0x55) = true := by decide
theorem test_ld_xy : nextHas (stepWord (regs 2 9 1 0) 0x8120) (fun t => t.readV 1 == 9) = true := by decide
/-- T34, T35, T36. -/
theorem test_or : nextHas (stepWord (regs 1 0x0F 2 0xF0) 0x8121) (fun t => t.readV 1 == 0xFF) = true := by decide
theorem test_and : nextHas (stepWord (regs 1 0x3C 2 0x0F) 0x8122) (fun t => t.readV 1 == 0x0C) = true := by decide
theorem test_xor : nextHas (stepWord (regs 1 0x3C 2 0x0F) 0x8123) (fun t => t.readV 1 == 0x33) = true := by decide
/-- T38, T43: with x = F the carry is written last. -/
theorem test_add_xy : nextHas (stepWord (regs 1 0xFF 2 0xFF) 0x8124)
    (fun t => t.readV 1 == 0xFE && t.readV 0xF == 1) = true := by decide
theorem test_add_xy_to_flag : nextHas (stepWord (regs 0xF 0x80 1 0x80) 0x8F14) (fun t => t.readV 0xF == 1) = true := by decide
/-- T48, T52, T53, T55. -/
theorem test_sub : nextHas (stepWord (regs 1 3 2 5) 0x8125) (fun t => t.readV 1 == 0xFE && t.readV 0xF == 0) = true ∧
    nextHas (stepWord (regs 1 3 2 3) 0x8125) (fun t => t.readV 1 == 0 && t.readV 0xF == 0) = true := by decide
theorem test_sub_alias : nextHas (stepWord (regs 0xF 0x10 2 0x05) 0x8F25) (fun t => t.readV 0xF == 0xFC) = true ∧
    nextHas (stepWord (regs 1 0x10 0xF 0x05) 0x81F5) (fun t => t.readV 0xF == 1 && t.readV 1 == 0x0F) = true ∧
    isRefused (stepWord { State.reset with params := { Params.default with vfAlias := .refuse } } 0x8F25) = true := by decide
/-- T57, T60, T61. -/
theorem test_shr : nextHas (stepWord (regs 1 0xFF 2 0xAB) 0x8126) (fun t => t.readV 1 == 0x7F && t.readV 0xF == 1) = true := by decide
theorem test_shr_alias : nextHas (stepWord (regs 0xF 0x03 1 0) 0x8F06) (fun t => t.readV 0xF == 0) = true := by decide
/-- T62, T65. -/
theorem test_subn : nextHas (stepWord (regs 1 3 2 5) 0x8127) (fun t => t.readV 1 == 2 && t.readV 0xF == 1) = true := by decide
theorem test_subn_alias : nextHas (stepWord (regs 0xF 0x03 2 0x10) 0x8F27) (fun t => t.readV 0xF == 0x0F) = true := by decide
/-- S5, T72. -/
theorem test_shl : nextHas (stepWord (regs 1 0x80 2 0) 0x810E) (fun t => t.readV 1 == 0 && t.readV 0xF == 1) = true := by decide
theorem test_shl_alias : nextHas (stepWord (regs 0xF 0xC1 1 0) 0x8F0E) (fun t => t.readV 0xF == 2) = true := by decide
/-- T74: RAND8 = 0xA7 lined up by the host. -/
theorem test_rnd : nextHas (stepWord { State.reset with inputs := [⟨keysDown [], 0xA7⟩] } 0xC30F)
    (fun t => t.readV 3 == 0x07) = true := by decide
/-- T77, T79, T80, T82. -/
theorem test_ld_i : nextHas (stepWord State.reset 0xA2F0) (fun t => t.i == 0x2F0) = true := by decide
theorem test_add_i : nextHas (stepWord ((regs 2 1 0 0).setI 0xFFF) 0xF21E) (fun t => t.i == 0x1000) = true ∧
    faultIs (stepWord ((regs 2 1 0 0).setI 0xFFFF) 0xF21E) (.indexOverflow 0x200 0x10000) = true := by decide
theorem test_add_i_wraps : nextHas (stepWord
    { (regs 2 0xFF 0 0).setI 0xFF80 with params := { Params.default with iOverflow := .wrap } } 0xF21E)
    (fun t => t.i == 0x007F) = true := by decide
/-- T83, T87. -/
theorem test_ld_f : nextHas (stepWord (regs 4 0x0A 0 0) 0xF429) (fun t => t.i == 0x032) = true ∧
    nextHas (stepWord (regs 4 0xFF 0 0) 0xF429) (fun t => t.i == 0x4FB) = true := by decide
/-- T92, T93. -/
theorem test_ld_b : nextHas (stepWord ((regs 1 123 0 0).setI 0xFFD) 0xF133)
    (fun t => t.readMem 0xFFD == 1 && t.readMem 0xFFE == 2 && t.readMem 0xFFF == 3) = true := by decide
theorem test_ld_b_out_of_range : faultIs (stepWord ((regs 1 123 0 0).setI 0xFFE) 0xF133)
    (.memoryOutOfRange 0x200 0x1000) = true := by decide
/-- T97, T98. -/
theorem test_ld_mem : nextHas (stepWord ((regs 0 1 0xF 0x10).setI 0xFF0) 0xFF55)
    (fun t => t.readMem 0xFF0 == 1 && t.readMem 0xFFF == 0x10 && t.i == 0xFF0) = true := by decide
theorem test_ld_mem_out_of_range : faultIs (stepWord (State.reset.setI 0xFF1) 0xFF55)
    (.memoryOutOfRange 0x200 0x1000) = true := by decide
/-- T99, T101. -/
theorem test_ld_vx_mem : nextHas (stepWord
    ((((regs 3 9 0 0).setI 0x400).writeMem 0x400 1).writeMem 0x402 3) 0xF265)
    (fun t => t.readV 0 == 1 && t.readV 1 == 0 && t.readV 2 == 3 && t.readV 3 == 9) = true := by decide
theorem test_ld_vx_mem_out_of_range : faultIs (stepWord (State.reset.setI 0xFFE) 0xF265)
    (.memoryOutOfRange 0x200 0x1000) = true := by decide
/-- T109: two bits, one of them on a lit pixel. -/
theorem test_drw_collides : nextHas (stepWord
    ((((State.reset.setI 0x300).writeMem 0x300 0xC0).setPixel 0 1 true).setPixel 0 2 true) 0xD011)
    (fun t => t.pixel 0 0 && !t.pixel 0 1 && t.pixel 0 2 && t.readV 0xF == 1) = true := by decide
/-- T107: both edges wrap. -/
theorem test_drw_wraps : nextHas (stepWord
    ((((regs 0 62 1 31).setI 0x300).writeMem 0x300 0xFF).writeMem 0x301 0x81) 0xD012)
    (fun t => t.pixel 31 62 && t.pixel 31 5 && !t.pixel 31 6 && t.pixel 0 62 && t.pixel 0 5
      && !t.pixel 0 63 && t.readV 0xF == 0) = true := by decide
/-- T115, T119. -/
theorem test_skp : nextHas (stepWord { regs 5 0x0A 0 0 with key := keysDown [0xA] } 0xE59E) (fun t => t.pc == 0x204) = true := by decide
theorem test_skp_bad_key : faultIs (stepWord (regs 5 0x10 0 0) 0xE59E) (.keyIndexOutOfRange 0x200 0x10) = true := by decide
/-- T118, T120. -/
theorem test_sknp : nextHas (stepWord (regs 5 0x0A 0 0) 0xE5A1) (fun t => t.pc == 0x204) = true := by decide
theorem test_sknp_bad_key : faultIs (stepWord (regs 5 0xFF 0 0) 0xE5A1) (.keyIndexOutOfRange 0x200 0xFF) = true := by decide
/-- T121, and the last cycle of T123: the lowest key of the sample lined up. -/
theorem test_ld_k_first_only_waits : nextHas (stepWord { State.reset with key := keysDown [3] } 0xF20A)
    (fun t => t.wait == .waiting && t.readV 2 == 0 && t.pc == 0x200) = true := by decide
theorem test_ld_k_takes_lowest : nextHas (stepWord
    { State.reset.setWait .waiting with inputs := [⟨keysDown [5, 3], 0⟩] } 0xF20A)
    (fun t => t.wait == .idle && t.readV 2 == 3 && t.pc == 0x202) = true := by decide
/-- T127, T129, T132, T133. -/
theorem test_ld_vx_dt : nextHas (stepWord (State.reset.setDt 5) 0xF307) (fun t => t.readV 3 == 5 && t.dt == 4) = true := by decide
theorem test_ld_dt : nextHas (stepWord (regs 1 0x3C 0 0) 0xF115) (fun t => t.dt == 0x3B) = true := by decide
theorem test_ld_st : nextHas (stepWord (regs 1 1 0 0) 0xF118)
      (fun t => t.st == 0 && (t.output.map (·.soundActive)) == some false) = true ∧
    nextHas (stepWord (regs 1 3 0 0) 0xF118)
      (fun t => t.st == 2 && (t.output.map (·.soundActive)) == some true) = true := by decide
/-- The font of R119: glyph 0 at 0x000, glyph F at 0x04B, zero after it. -/
theorem test_font : (List.range 5).map State.reset.readMem = [0xF0, 0x90, 0x90, 0x90, 0xF0] ∧
    State.reset.readMem 0x4B = 0xF0 ∧ State.reset.readMem 0x4F = 0x80 ∧ State.reset.readMem 0x50 = 0 := by decide

/-! ### Witnesses: states and operands that meet the hypotheses of each statement -/

/-- A completed no-op from reset, for the rules over all completed instructions. -/
theorem test_completed_sys : exec (.sys 0x123) State.reset = .next (State.reset.endCycle .advance none) := rfl

theorem witness_DecodingAnEncodingGivesTheInstruction :
    (Instr.sys 0xFFF).wellFormed = true ∧ (Instr.unrecognised 0x5001).wellFormed = true := by decide

/-- A boundary word of each clause. -/
theorem witness_UnrecognisedWordsAreThoseListed :
    decodeWord 0x5001 = .unrecognised 0x5001 ∧ decodeWord 0x800F = .unrecognised 0x800F ∧
    decodeWord 0x900F = .unrecognised 0x900F ∧ decodeWord 0xE09F = .unrecognised 0xE09F ∧
    decodeWord 0xF066 = .unrecognised 0xF066 ∧ decodeWord 0x800E ≠ .unrecognised 0x800E := by decide

theorem witness_StepRunsTheDecodedInstruction :
    State.reset.status = .running ∧ State.reset.pc.toNat + 1 < 4096 ∧
    decode [State.reset.readMem State.reset.pc.toNat, State.reset.readMem (State.reset.pc.toNat + 1)]
      = .ok (.sys 0, []) := by decide

theorem witness_StepTakesOneInput :
    ({ State.reset with inputs := [⟨keysDown [3], 0xA7⟩] } : State).inputs = ⟨keysDown [3], 0xA7⟩ :: [] ∧
    State.reset.inputs = [] := ⟨rfl, rfl⟩

/-- The lowest pc that cannot be fetched. -/
theorem witness_FetchPastMemoryFaults :
    (State.reset.setPc 0xFFF).status = .running ∧ 0xFFF ≤ (State.reset.setPc 0xFFF).pc.toNat := by decide

theorem witness_FaultEndsTheSession :
    step (State.reset.setPc 0xFFF) = .fault (.fetchOutOfRange 0xFFF) ∧
    (State.reset.takeFault (.stackUnderflow 0x200)).status = .faulted (.stackUnderflow 0x200) := ⟨rfl, rfl⟩

theorem witness_EveryCycleTicksAndEmits :
    ∃ t, exec (.unrecognised 0x5121) (State.reset.setDt 2) = .next t ∧
      (∀ x, Instr.unrecognised 0x5121 ≠ .ldDtVx x) ∧ (∀ x, Instr.unrecognised 0x5121 ≠ .ldStVx x) :=
  ⟨_, rfl, nofun, nofun⟩

/-- The last pc that can be fetched. -/
theorem witness_StepRunsThePlacedWord :
    (State.reset.setPc 0xFFE).mem.wf = true ∧ (State.reset.setPc 0xFFE).pc.toNat + 1 < 4096 := by decide

theorem witness_OnlyThreeInstructionsWriteIndex :
    ∃ t, exec (.ldMemVx 0xF) ((State.reset.setI 0xFF0)) = .next t ∧ (∀ a, Instr.ldMemVx 0xF ≠ .ldI a) ∧
      (∀ x, Instr.ldMemVx 0xF ≠ .addIVx x) ∧ (∀ x, Instr.ldMemVx 0xF ≠ .ldFVx x) :=
  ⟨_, rfl, nofun, nofun, nofun⟩

/-- A call, a return, and an instruction that is neither. -/
theorem witness_OnlyCallAndReturnWriteTheStack :
    (∃ t, exec (.call 0x400) (State.reset.setSp 14) = .next t) ∧
    (∃ t, exec .ret (State.reset.setSp 1) = .next t ∧ ∀ a, Instr.ret ≠ .call a) ∧
    (∃ t, exec (.jp 0) State.reset = .next t ∧ (∀ a, Instr.jp 0 ≠ .call a) ∧ Instr.jp 0 ≠ .ret) :=
  ⟨⟨_, rfl⟩, ⟨_, rfl, nofun⟩, ⟨_, rfl, nofun, nofun⟩⟩

theorem witness_OnlyDrawAndClearWriteTheScreen :
    (∃ t, exec .cls { State.reset with params := { Params.default with cls := .noop } } = .next t) ∧
    (∃ t, exec (.ldI 0) State.reset = .next t ∧ (∀ x y n, Instr.ldI 0 ≠ .drw x y n) ∧ Instr.ldI 0 ≠ .cls) :=
  ⟨⟨_, rfl⟩, ⟨_, rfl, nofun, nofun⟩⟩

theorem witness_OnlyKeyWaitWritesWait :
    ∃ t, exec (.skp 0) State.reset = .next t ∧ ∀ x, Instr.skp 0 ≠ .ldVxK x := ⟨_, rfl, nofun⟩

theorem witness_OnlyTwoInstructionsWriteMemory :
    ∃ t, exec (.ldVxMem 3) State.reset = .next t ∧ (∀ x, Instr.ldVxMem 3 ≠ .ldBVx x) ∧
      ∀ x, Instr.ldVxMem 3 ≠ .ldMemVx x := ⟨_, rfl, nofun, nofun⟩

/-- An instruction with a destination, at the last register that is not VF, and one without. -/
theorem witness_OnlyFlagInstructionsWriteFlag :
    (∃ t, exec (.ldVxMem 0xE) State.reset = .next t) ∧ (0xE : RegIx) ≠ regF ∧
    (∃ t, exec (.addIVx 0xF) State.reset = .next t) := ⟨⟨_, rfl⟩, by decide, ⟨_, rfl⟩⟩

theorem witness_NoInstructionWritesHostState :
    ∃ t, exec (.ldVxK 0) State.reset = .next t := ⟨_, rfl⟩

/-- A fault of each kind an instruction raises, at a boundary. -/
theorem witness_FaultsOnlyAsTabled :
    exec .ret State.reset = .fault (.stackUnderflow 0x200) ∧
    exec (.call 0) (State.reset.setSp 15) = .fault (.stackOverflow 0x200) ∧
    exec (.ldMemVx 0) (State.reset.setI 0x1000) = .fault (.memoryOutOfRange 0x200 0x1000) ∧
    exec (.skp 0) (regs 0 16 1 0) = .fault (.keyIndexOutOfRange 0x200 16) ∧
    exec (.addIVx 0) ((regs 0 1 1 0).setI 0xFFFF) = .fault (.indexOverflow 0x200 0x10000) :=
  ⟨rfl, rfl, rfl, rfl, rfl⟩

/-- Each of the alias cases under refuse. -/
theorem witness_OnlyAliasCasesAreRefused :
    let s : State := { State.reset with params := { Params.default with vfAlias := .refuse } }
    exec (.subVxVy 0xF 1) s = .refused (.vfAlias 0x200) ∧ exec (.subnVxVy 1 0xF) s = .refused (.vfAlias 0x200) ∧
    exec (.shrVxVy 0xF 0) s = .refused (.vfAlias 0x200) ∧ exec (.shlVxVy 0xF 0) s = .refused (.vfAlias 0x200) ∧
    exec (.drw 0 0xF 0) s = .refused (.vfAlias 0x200) := ⟨rfl, rfl, rfl, rfl, rfl⟩

/-- The largest image that fits, and the smallest that does not, by length. -/
theorem witness_BootGivesTheLaunchState :
    Launch.clean.mem.wf = true ∧ 0x200 + (List.replicate 3584 (0 : Byte)).length ≤ 4096 := by
  rw [List.length_replicate]; decide
theorem witness_UnfitImageFailsToLoad : 4096 < 0x200 + (List.replicate 3585 (0 : Byte)).length := by
  rw [List.length_replicate]; decide

/-- Invariant states with a next state: a return of depth one, and a call. -/
theorem witness_StepKeepsPcStackAndMemoryBounded :
    State.reset.mem.wf = true ∧ State.reset.pc.toNat ≤ 0x10FE ∧ State.reset.sp = 0 ∧
    nextHas (step State.reset) (fun _ => true) = true := by decide

/-- A waiting state at a Fx0A, which steps. -/
theorem witness_StepKeepsWaitingAtAKeyWord :
    let s := (State.reset.setWait .waiting).withFetchWord 16 0xF20A
    s.wait = .waiting ∧ s.pc.toNat + 1 < Config.memSize ∧
    decodeWord (wordOfBytes (s.readMem s.pc.toNat) (s.readMem (s.pc.toNat + 1))) = .ldVxK 2 ∧
    nextHas (step s) (fun t => t.wait == .waiting) = true := by decide

/-- A jump, a call, a Bnnn, a return, a skip and an advance at their limits. -/
theorem witness_PcStaysEvenAndFetchable :
    (∃ t, exec (.jp 0xFFE) State.reset = .next t) ∧ (∃ t, exec (.call 0xFFE) State.reset = .next t) ∧
    (∃ t, exec (.jpV0 0xFFE) State.reset = .next t) ∧
    (∃ t, exec .ret ((State.reset.setSp 1).setSlot 1 0xFFC) = .next t) ∧
    (∃ t, exec (.seVxKk 0 0) (State.reset.setPc 0xFFA) = .next t ∧ t.pc = 0xFFE) ∧
    (∃ t, exec (.sys 0) (State.reset.setPc 0xFFC) = .next t ∧ t.pc = 0xFFE) :=
  ⟨⟨_, rfl⟩, ⟨_, rfl⟩, ⟨_, rfl⟩, ⟨_, rfl⟩, ⟨_, rfl, rfl⟩, ⟨_, rfl, rfl⟩⟩

theorem witness_CanonicalMemoriesAreEqualWhenTheyReadAlike :
    Memory.wf [(0, 1), (0xFFF, 7)] = true ∧ Memory.wf [(0, 0xF0)] = false ∧ Memory.wf [(5, 1), (5, 2)] = false := by decide

theorem witness_ReturnResumesAfterTheCall : (State.reset.setSp 15).sp ≠ 0 ∧ State.reset.sp = 0 := by decide
theorem witness_CallPushesItsOwnAddress : State.reset.sp ≠ 15 ∧ (State.reset.setSp 15).sp = 15 := by decide
theorem witness_SkipsCompareWithImmediate :
    (regs 1 0x53 2 0).readV 1 = 0x53 ∧ (regs 1 0x53 2 0).readV 1 ≠ 0x54 := by decide
theorem witness_SkipsCompareRegisters :
    (regs 2 7 3 8).readV 2 = (regs 2 7 3 8).readV 2 ∧ (regs 2 7 3 8).readV 2 ≠ (regs 2 7 3 8).readV 3 ∧
    (1 : BitVec 4) ≠ 0 := by decide
theorem witness_AddRegistersSetsCarryLast : (0xE : RegIx) ≠ regF := by decide
theorem witness_SubtractionsSetStrictFlag : (0xE : RegIx) ≠ regF ∧ (0 : RegIx) ≠ regF := by decide
theorem witness_SubtractAliasCasesRunInOrder :
    State.reset.params.vfAlias = .sequential ∧ (0xE : RegIx) ≠ regF := by decide
theorem witness_ReverseSubtractAliasCasesRunInOrder :
    State.reset.params.vfAlias = .sequential ∧ (0 : RegIx) ≠ regF := by decide
theorem witness_ShiftsSetTheBitShiftedOut : (0xE : RegIx) ≠ regF := by decide
theorem witness_ShiftAliasCasesRunInOrder : State.reset.params.vfAlias = .sequential := by decide

/-- The largest sum that fits, a sum that wraps, a sum that faults. -/
theorem witness_AddToIndexFollowsOverflowParameter :
    ((regs 2 1 0 0).setI 0xFFFE).i.toNat + (((regs 2 1 0 0).setI 0xFFFE).readV 2).toNat ≤ 0xFFFF ∧
    ({ State.reset with params := { Params.default with iOverflow := .wrap } } : State).params.iOverflow = .wrap ∧
    0xFFFF < ((regs 2 1 0 0).setI 0xFFFF).i.toNat + (((regs 2 1 0 0).setI 0xFFFF).readV 2).toNat ∧
    ((regs 2 1 0 0).setI 0xFFFF).params.iOverflow = .fault := by decide

/-- The highest I that fits each block. -/
theorem witness_DecimalDigitsAreStored :
    (State.reset.setI 0xFFD).mem.wf = true ∧ (State.reset.setI 0xFFD).dataAddr 2 < 4096 := by decide
theorem witness_BlockStoreWritesRegisters :
    (State.reset.setI 0xFF0).mem.wf = true ∧ (State.reset.setI 0xFF0).dataAddr (0xF : RegIx).toNat < 4096 := by decide
theorem witness_BlockLoadReadsRegisters :
    (State.reset.setI 0xFFF).dataAddr (0 : RegIx).toNat < 4096 := by decide
theorem witness_BlockStoreThenLoadRestoresRegisters :
    (State.reset.setI 0x400).mem.wf = true ∧ (State.reset.setI 0x400).dataAddr (2 : RegIx).toNat < 4096 := by decide

/-- The lowest I of each clause. -/
theorem witness_FirstAddressOutOfMemoryIsReported :
    4096 ≤ (State.reset.setI 0xFFE).dataAddr 2 ∧ 4096 ≤ (State.reset.setI 0xFF1).dataAddr (0xF : RegIx).toNat ∧
    (1 : BitVec 4) ≠ 0 ∧ 4096 ≤ (State.reset.setI 0x1000).dataAddr ((1 : BitVec 4).toNat - 1) ∧
    State.reset.params.vfAlias = .sequential := by decide

theorem witness_ClearScreenFollowsParameter :
    State.reset.params.cls = .clear ∧
    ({ State.reset with params := { Params.default with cls := .noop } } : State).params.cls = .noop := by decide

/-- A sprite at the last address of memory, on and off its pixel. -/
theorem witness_DrawXorsTheSprite :
    DrawRuns 0 1 1 (State.reset.setI 0xFFF) ∧ FallsOn 0xFF 0xFF 0 7 31 6 ∧
    (∀ r j, r < 1 → j < 8 → ¬ FallsOn 0 0 r j 1 0) := by
  refine ⟨⟨.inl rfl, ?_⟩, ⟨rfl, rfl⟩, ?_⟩
  · intro r hr
    have : r = 0 := by simpa using hr
    subst this
    decide
  · rintro r j hr - ⟨h, -⟩
    have : r = 0 := by omega
    subst this
    exact absurd h (by decide)

/-- A draw that turns a pixel off, and one that turns none off. -/
theorem witness_DrawReportsCollision :
    nextHas (exec (.drw 0 1 1) (((State.reset.setI 0x300).writeMem 0x300 0x80).setPixel 0 0 true))
      (fun t => !t.pixel 0 0) = true ∧
    nextHas (exec (.drw 0 1 0) (State.reset.setPixel 0 0 true)) (fun t => t.pixel 0 0) = true := by decide

/-- S6. -/
theorem witness_DrawingTwiceRestoresTheScreen :
    nextHas (exec (.drw 0 1 1) ((State.reset.setI 0x300).writeMem 0x300 0x80)) (fun t => t.pixel 0 0
      && nextHas (exec (.drw 0 1 1) t) (fun u => !u.pixel 0 0 && u.readV 0xF == 1)) = true := by decide

/-- The highest key number, pressed and released, and the lowest number past it. -/
theorem witness_KeySkipsTestTheKeyNumbered :
    ((regs 5 15 0 0).readV 5).toNat = (15 : Fin 16).val ∧ (keysDown [15])[(15 : Fin 16)] = true ∧
    State.reset.key[(15 : Fin 16)] = false ∧ 15 < ((regs 5 16 0 0).readV 5).toNat := by decide

/-- Each row of the state table. -/
theorem witness_KeyWaitFollowsItsStateTable :
    State.reset.wait = .idle ∧ (State.reset.setWait .waiting).wait = .waiting ∧
    (∀ k : Fin 16, (State.reset.setWait .waiting).key[k] = false) ∧
    (keysDown [15])[(15 : Fin 16)] = true ∧ (∀ j : Fin 16, j < 15 → (keysDown [15])[j] = false) := by decide

end Sys2Proof.Tests
end

namespace Sys2Proof.Machine

/-! ### The step engine: inputs, fetch and decode

`step` said once for each session status, so that no later proof unfolds it. -/

section
variable {s : State}

@[simp] theorem State.takeInput_pc : s.takeInput.pc = s.pc := by
  obtain ⟨_, _, _, _, h⟩ := s.takeInput_eq; rw [h]

@[simp] theorem State.takeInput_sp : s.takeInput.sp = s.sp := by
  obtain ⟨_, _, _, _, h⟩ := s.takeInput_eq; rw [h]

@[simp] theorem State.takeInput_stack : s.takeInput.stack = s.stack := by
  obtain ⟨_, _, _, _, h⟩ := s.takeInput_eq; rw [h]

@[simp] theorem State.takeInput_wait : s.takeInput.wait = s.wait := by
  obtain ⟨_, _, _, _, h⟩ := s.takeInput_eq; rw [h]

@[simp] theorem State.takeInput_mem : s.takeInput.mem = s.mem := by
  obtain ⟨_, _, _, _, h⟩ := s.takeInput_eq; rw [h]

@[simp] theorem State.takeInput_slot (k : BitVec 4) : s.takeInput.slot k = s.slot k :=
  State.slot_of_stack State.takeInput_stack k

@[simp] theorem State.takeInput_readMem (a : Nat) : s.takeInput.readMem a = s.readMem a :=
  State.readMem_of_mem State.takeInput_mem a

/-- The big-endian word at pc (R37). -/
def State.wordAtPc (s : State) : Word := wordOfBytes (s.readMem s.pc.toNat) (s.readMem (s.pc.toNat + 1))

@[simp] theorem State.takeInput_wordAtPc : s.takeInput.wordAtPc = s.wordAtPc := by
  simp only [State.wordAtPc, State.takeInput_pc, State.takeInput_readMem]

theorem step_of_faulted {f : Fault} (h : s.status = .faulted f) : step s = .fault f := by
  simp only [step, runStep, h]

/-- A Running session whose pc can be fetched runs the instruction of the word there (R28). -/
theorem step_of_fetch (hr : s.status = .running) (hp : s.pc.toNat + 1 < Config.memSize) :
    step s = exec (decodeWord s.wordAtPc) s.takeInput := by
  have hf : fetchWord s.takeInput = .next s.takeInput.wordAtPc := fetchWord_next (by simpa using hp)
  simp only [step, runStep, hr, runCycle, hf, andThen_next, State.takeInput_wordAtPc]

/-- A completed step was such a run. -/
theorem exec_of_step {t : State} (h : step s = .next t) :
    s.pc.toNat + 1 < Config.memSize ∧ exec (decodeWord s.wordAtPc) s.takeInput = .next t :=
  (step_next_cases h).2

end

/-! ### The call stack -/

section
variable (s : State)

@[simp] theorem State.push_sp (w : Word) : (s.push w).sp = s.sp + 1 := rfl

theorem State.push_slot (w : Word) (k : BitVec 4) :
    (s.push w).slot k = if s.sp + 1 = k then w else s.slot k :=
  State.slot_setSlot _ (s.sp + 1) k w

@[simp] theorem State.popPc_pc : s.popPc.pc = s.slot s.sp := rfl
@[simp] theorem State.popPc_sp : s.popPc.sp = s.sp - 1 := rfl
@[simp] theorem State.popPc_slot (k : BitVec 4) : s.popPc.slot k = s.slot k := rfl

/-- SP is checked for 15 before a call, so its slot is never slot 0 (R17). -/
theorem State.push_slot_zero {s : State} (h : s.sp ≠ 15) (w : Word) : (s.push w).slot 0 = s.slot 0 := by
  rw [State.push_slot, if_neg (by bv_omega)]

/-- A push of a fetched address keeps the live slots bounded. -/
theorem State.StackBounded.push {s : State} (h : s.StackBounded) {w : Word}
    (hw : w.toNat ≤ 0xFFE) : (s.push w).StackBounded := by
  intro k hk hle
  rw [State.push_slot]
  split
  next => exact hw
  next hne =>
    rw [State.push_sp] at hle
    exact h k hk (by bv_omega)

/-- A return leaves fewer live slots. -/
theorem State.StackBounded.popPc {s : State} (h : s.StackBounded) (hs : s.sp ≠ 0) : s.popPc.StackBounded := by
  intro k hk hle
  rw [State.popPc_sp] at hle
  exact h k hk (by bv_omega)

theorem State.StackBounded.of_eq {s t : State} (h : s.StackBounded) (hsp : t.sp = s.sp)
    (hst : t.stack = s.stack) : t.StackBounded := by
  intro k hk hle
  rw [State.slot_of_stack hst]
  exact h k hk (hsp ▸ hle)

end

/-! ### Targets of pc -/

@[simp] theorem absTarget_toNat (a : Addr12) : (absTarget a).toNat = a.toNat := by
  unfold absTarget; bv_omega

/-- "nnn + V0" is at most 0x10FE, so the sum in 16 bits is the sum (R68). -/
@[simp] theorem State.offsetTarget_toNat (s : State) (a : Addr12) :
    (s.offsetTarget a).toNat = a.toNat + (s.readV 0).toNat := by
  unfold State.offsetTarget; bv_omega

/-- The PC actions that do not jump. -/
def PcAction.sequential : PcAction → Bool
  | .advance | .skip | .wait => true
  | .jump _ => false

theorem PcAction.target_of_sequential {act : PcAction} (h : act.sequential = true) (pc : Word) :
    act.target pc = pc ∨ act.target pc = pc + 2 ∨ act.target pc = pc + 4 := by
  cases act with
  | advance => exact .inr (.inl rfl)
  | skip => exact .inr (.inr rfl)
  | jump a => cases h
  | wait => exact .inl rfl

/-! ### The end of a cycle -/

theorem countedDown_countdown (b : Byte) : CountedDown b (countdown b) := countdown_toNat b

theorem emitsRecord_endCycle (s : State) (act : PcAction) (log : Option Word) :
    EmitsRecord (s.endCycle act log) log := by
  have hsound : (countdown s.st != 0) = decide (countdown s.st ≠ 0) := Bool.eq_iff_iff.mpr (by simp)
  rw [EmitsRecord, State.endCycle_eq]
  simp only [hsound]

/-- A cycle whose handler wrote general registers only. -/
theorem registerCycle_endCycle (s : State) (v : Vector Byte 16) (act : PcAction) :
    RegisterCycle s (State.endCycle { s with v := v } act none) where
  plain := by
    have hrec := emitsRecord_endCycle { s with v := v } act none
    rw [State.endCycle_eq] at hrec ⊢
    exact ⟨countedDown_countdown _, countedDown_countdown _, hrec, ⟨rfl, rfl, rfl, rfl, rfl, rfl⟩⟩
  index := by rw [State.endCycle_eq]; rfl
  stack := by rw [State.endCycle_eq]; exact ⟨rfl, fun _ => rfl⟩
  wait := by rw [State.endCycle_eq]; rfl
  screen := by rw [State.endCycle_eq]; exact fun _ _ => rfl
  memory := by rw [State.endCycle_eq]; exact fun _ => rfl

/-! ### What a handler leaves alone

The frame of every handler, field by field, read off `HandlerEffect` in one case split. -/

/-- The instructions to which VF is an ordinary register that is not their destination: neither one of the six
flag producers nor one whose `x` names VF (R14). -/
def Instr.SparesFlag : Instr → Prop
  | .addVxVy _ _ | .subVxVy _ _ | .shrVxVy _ _ | .subnVxVy _ _ | .shlVxVy _ _ | .drw _ _ _ => False
  | .ldVxKk x _ | .addVxKk x _ | .ldVxVy x _ | .orVxVy x _ | .andVxVy x _ | .xorVxVy x _ | .rnd x _
  | .ldVxDt x | .ldVxK x | .ldVxMem x => x ≠ regF
  | _ => True

/-- What the handler of `i` keeps from `s` to `u`, and when its PC action is not a jump. Each field holds by
computation unless the instruction is one it names, so the proof below gives only the named ones. -/
structure HandlerFrame (i : Instr) (s u : State) (act : PcAction) : Prop where
  outside : SameOutside s u := by exact ⟨rfl, rfl, rfl, rfl, rfl, rfl⟩
  flag    : Instr.SparesFlag i → u.readV regF = s.readV regF := by intros; rfl
  index   : (∀ a, i ≠ .ldI a) → (∀ x, i ≠ .addIVx x) → (∀ x, i ≠ .ldFVx x) → u.i = s.i := by intros; rfl
  pc      : i ≠ .ret → u.pc = s.pc := by intros; rfl
  sp      : (∀ a, i ≠ .call a) → i ≠ .ret → u.sp = s.sp := by intros; rfl
  stack   : (∀ a, i ≠ .call a) → u.stack = s.stack := by intros; rfl
  dt      : (∀ x, i ≠ .ldDtVx x) → u.dt = s.dt := by intros; rfl
  st      : (∀ x, i ≠ .ldStVx x) → u.st = s.st := by intros; rfl
  fb      : (∀ x y n, i ≠ .drw x y n) → (i = .cls → s.params.cls = .noop) → u.fb = s.fb := by intros; rfl
  wait    : (∀ x, i ≠ .ldVxK x) → u.wait = s.wait := by intros; rfl
  mem     : (∀ x, i ≠ .ldBVx x) → (∀ x, i ≠ .ldMemVx x) → u.mem = s.mem := by intros; rfl
  memWf   : s.mem.wf = true → u.mem.wf = true := by exact id
  act     : (∀ a, i ≠ .jp a) → (∀ a, i ≠ .call a) → (∀ a, i ≠ .jpV0 a) → act.sequential = true := by intros; rfl

theorem HandlerEffect.frame {i : Instr} {s u : State} {act : PcAction} (h : HandlerEffect i s u act) :
    HandlerFrame i s u act := by
  cases i
  case cls =>
    obtain ⟨⟨-, rfl⟩ | ⟨hc, rfl⟩, rfl⟩ := h
    · exact {}
    · exact { fb := fun _ hn => absurd ((hn rfl).symm.trans hc) nofun }
  case ret =>
    obtain ⟨-, rfl, rfl⟩ := h
    exact { pc := fun hn => absurd rfl hn, sp := fun _ hn => absurd rfl hn }
  case call =>
    obtain ⟨-, rfl, rfl⟩ := h
    exact { sp := fun hn => absurd rfl (hn _), stack := fun hn => absurd rfl (hn _)
            act := fun _ hn => absurd rfl (hn _) }
  case jp =>
    obtain ⟨rfl, rfl⟩ := h
    exact { act := fun hn => absurd rfl (hn _) }
  case jpV0 =>
    obtain ⟨rfl, rfl⟩ := h
    exact { act := fun _ _ hn => absurd rfl (hn _) }
  case sys | unrecognised => obtain ⟨rfl, rfl⟩ := h; exact {}
  case seVxKk | sneVxKk | seVxVy | sneVxVy | skp | sknp => obtain ⟨rfl, rfl | rfl⟩ := h <;> exact {}
  case ldVxKk | addVxKk | ldVxVy | orVxVy | andVxVy | xorVxVy | rnd | ldVxDt =>
    obtain ⟨⟨b, rfl⟩, rfl⟩ := h
    exact { flag := fun hx => s.readV_setV_ne hx b }
  case addVxVy | subVxVy | shrVxVy | subnVxVy | shlVxVy =>
    obtain ⟨⟨_, _, rfl⟩, rfl⟩ := h
    exact { flag := False.elim }
  case ldI => obtain ⟨⟨w, rfl⟩, rfl⟩ := h; exact { index := fun hn => absurd rfl (hn _) }
  case addIVx => obtain ⟨⟨w, rfl⟩, rfl⟩ := h; exact { index := fun _ hn => absurd rfl (hn _) }
  case ldFVx => obtain ⟨⟨w, rfl⟩, rfl⟩ := h; exact { index := fun _ _ hn => absurd rfl (hn _) }
  case ldBVx => obtain ⟨⟨m, rfl⟩, hw, rfl⟩ := h; exact { mem := fun hn => absurd rfl (hn _), memWf := hw }
  case ldMemVx => obtain ⟨⟨m, rfl⟩, hw, rfl⟩ := h; exact { mem := fun _ hn => absurd rfl (hn _), memWf := hw }
  case ldVxMem x =>
    obtain ⟨⟨v, rfl⟩, hv, rfl⟩ := h
    have hlt : x ≠ regF → x.toNat < regF.toNat := by unfold regF; bv_omega
    exact { flag := fun hx => hv regF (hlt hx) }
  case drw =>
    obtain ⟨⟨⟨v, fb, rfl⟩, -⟩, rfl⟩ := h
    exact { flag := False.elim, fb := fun hn => absurd rfl (hn _ _ _) }
  case ldVxK =>
    obtain ⟨rfl, rfl⟩ | ⟨rfl, rfl⟩ | ⟨⟨b, rfl⟩, rfl⟩ := h
    · exact { wait := fun hn => absurd rfl (hn _) }
    · exact {}
    · exact { flag := fun hx => s.readV_setV_ne hx b, wait := fun hn => absurd rfl (hn _) }
  case ldDtVx => obtain ⟨rfl, rfl⟩ := h; exact { dt := fun hn => absurd rfl (hn _) }
  case ldStVx => obtain ⟨rfl, rfl⟩ := h; exact { st := fun hn => absurd rfl (hn _) }

/-! ### The invariant on memory, pc and the stack (R15) -/

section
variable {i : Instr} {s u t : State} {act : PcAction}

theorem HandlerEffect.stackBounded (h : HandlerEffect i s u act) (hs : s.StackBounded)
    (hp : s.pc.toNat ≤ 0xFFE) : u.StackBounded := by
  by_cases hc : ∃ a, i = .call a
  · obtain ⟨a, rfl⟩ := hc
    obtain ⟨-, rfl, -⟩ := h
    exact hs.push hp
  by_cases hr : i = .ret
  · subst hr
    obtain ⟨hsp, rfl, -⟩ := h
    exact hs.popPc hsp
  have hc' : ∀ a, i ≠ .call a := fun a e => hc ⟨a, e⟩
  exact hs.of_eq (h.frame.sp hc' hr) (h.frame.stack hc')

/-- A sequential action from a fetched pc ends at most at 0x1002 (R15). -/
theorem PcAction.target_le_of_sequential (h : act.sequential = true) {pc : Word} (hp : pc.toNat ≤ 0xFFE) :
    (act.target pc).toNat ≤ 0x1002 := by
  rcases PcAction.target_of_sequential h pc with h | h | h <;> rw [h] <;> bv_omega

theorem HandlerEffect.target_le (h : HandlerEffect i s u act) (hs : s.StackBounded) (hp : s.pc.toNat ≤ 0xFFE) :
    (act.target u.pc).toNat ≤ 0x10FE := by
  cases i
  case jp a =>
    obtain ⟨-, rfl⟩ := h
    rw [PcAction.target, absTarget_toNat]
    omega
  case call a =>
    obtain ⟨-, -, rfl⟩ := h
    rw [PcAction.target, absTarget_toNat]
    omega
  case jpV0 a =>
    obtain ⟨-, rfl⟩ := h
    rw [PcAction.target, State.offsetTarget_toNat]
    omega
  case ret =>
    obtain ⟨hsp, rfl, rfl⟩ := h
    have := hs s.sp hsp le_rfl
    exact (PcAction.target_le_of_sequential rfl this).trans (by decide)
  all_goals
    rw [h.frame.pc nofun]
    exact (PcAction.target_le_of_sequential (h.frame.act nofun nofun nofun) hp).trans (by decide)

/-- A completed instruction that was fetched keeps the invariant. -/
theorem exec_keeps_inv (h : exec i s = .next t) (hs : s.Inv) (hp : s.pc.toNat + 1 < Config.memSize) : t.Inv := by
  obtain ⟨u, act, rfl, hu⟩ := exec_next_cases h
  have hp' : s.pc.toNat ≤ 0xFFE := by unfold Config.memSize at hp; omega
  rw [State.endCycle_eq]
  exact ⟨hu.frame.memWf hs.mem, hu.target_le hs.stack hp', hu.stackBounded hs.stack hp'⟩

theorem State.Inv.takeInput (hs : s.Inv) : s.takeInput.Inv where
  mem := by simpa using hs.mem
  pc := by simpa using hs.pc
  stack := hs.stack.of_eq State.takeInput_sp State.takeInput_stack

end

/-- Settles O24: the invariant is kept by the taking of the inputs and by every fetched instruction. -/
theorem stepKeepsPcStackAndMemoryBounded : Obligations.StepKeepsPcStackAndMemoryBounded := by
  unfold Obligations.StepKeepsPcStackAndMemoryBounded
  intro s t hs h
  obtain ⟨hp, he⟩ := exec_of_step h
  exact exec_keeps_inv he hs.takeInput (by simpa using hp)

/-! ### The wait state (R21) -/

section
variable {i : Instr} {s t : State}

theorem exec_wait (h : exec i s = .next t) (hi : ∀ x, i ≠ .ldVxK x) : t.wait = s.wait := by
  obtain ⟨u, act, rfl, hu⟩ := exec_next_cases h
  rw [State.endCycle_eq]
  exact hu.frame.wait hi

/-- A Fx0A that ends Waiting has moved neither pc nor memory (R97). -/
theorem exec_ldVxK_of_waiting {x : RegIx} (h : exec (.ldVxK x) s = .next t) (hw : t.wait = .waiting) :
    t.pc = s.pc ∧ t.mem = s.mem := by
  obtain ⟨u, act, rfl, ⟨rfl, rfl⟩ | ⟨rfl, rfl⟩ | ⟨⟨b, rfl⟩, rfl⟩⟩ := exec_next_cases h
  · exact ⟨rfl, rfl⟩
  · exact ⟨rfl, rfl⟩
  · cases hw

theorem State.wordAtPc_of_eq (hp : t.pc = s.pc) (hm : t.mem = s.mem) : t.wordAtPc = s.wordAtPc := by
  simp only [State.wordAtPc, hp, State.readMem_of_mem hm]

end

/-- Settles O25: a step that ends Waiting ran a Fx0A, since any other instruction keeps WAIT and would have
started Waiting at a word that is none; and that Fx0A is still the word at pc. -/
theorem stepKeepsWaitingAtAKeyWord : Obligations.StepKeepsWaitingAtAKeyWord := by
  unfold Obligations.StepKeepsWaitingAtAKeyWord
  intro s t hs h hw
  obtain ⟨hp, he⟩ := exec_of_step h
  have hkey : ∃ x, decodeWord s.wordAtPc = .ldVxK x := by
    by_contra hn
    have hwait := exec_wait he fun x e => hn ⟨x, e⟩
    rw [hw, State.takeInput_wait] at hwait
    exact hn (hs hwait.symm).2
  obtain ⟨x, hx⟩ := hkey
  rw [hx] at he
  obtain ⟨hpc, hmem⟩ := exec_ldVxK_of_waiting he hw
  rw [State.takeInput_pc] at hpc
  rw [State.takeInput_mem] at hmem
  exact ⟨hpc ▸ hp, x, (congrArg decodeWord (State.wordAtPc_of_eq hpc hmem)).trans hx⟩

/-! ### Rules over all instructions -/

/-- Settles O10: the end of the cycle counts down what the handler left in the timers. -/
theorem everyCycleTicksAndEmits : Obligations.EveryCycleTicksAndEmits := by
  unfold Obligations.EveryCycleTicksAndEmits
  intro i s t h
  obtain ⟨u, act, rfl, hu⟩ := exec_next_cases h
  refine ⟨?_, fun hi => ?_, fun hi => ?_⟩
  · have hrec := emitsRecord_endCycle u act (Instr.logEvent i)
    cases i <;> exact hrec
  · rw [← hu.frame.dt hi, State.endCycle_eq]
    exact countedDown_countdown u.dt
  · rw [← hu.frame.st hi, State.endCycle_eq]
    exact countedDown_countdown u.st

/-- Settles O12. -/
theorem onlyThreeInstructionsWriteIndex : Obligations.OnlyThreeInstructionsWriteIndex := by
  unfold Obligations.OnlyThreeInstructionsWriteIndex
  intro i s t h hld hadd hfont
  obtain ⟨u, act, rfl, hu⟩ := exec_next_cases h
  rw [State.endCycle_eq]
  exact hu.frame.index hld hadd hfont

/-- Settles O13: a call writes the slot above SP, which is not slot 0 because SP is not 15. -/
theorem onlyCallAndReturnWriteTheStack : Obligations.OnlyCallAndReturnWriteTheStack := by
  unfold Obligations.OnlyCallAndReturnWriteTheStack
  intro i s t h
  obtain ⟨u, act, rfl, hu⟩ := exec_next_cases h
  have hslots : (∀ a, i ≠ .call a) → ∀ k, u.slot k = s.slot k := fun hi k =>
    State.slot_of_stack (hu.frame.stack hi) k
  have hzero : u.slot 0 = s.slot 0 := by
    by_cases hc : ∃ a, i = .call a
    · obtain ⟨a, rfl⟩ := hc
      obtain ⟨hsp, rfl, -⟩ := hu
      exact State.push_slot_zero hsp s.pc
    · exact hslots (fun a e => hc ⟨a, e⟩) 0
  rw [State.endCycle_eq]
  exact ⟨hzero, hslots, hu.frame.sp⟩

/-- Settles O14. -/
theorem onlyDrawAndClearWriteTheScreen : Obligations.OnlyDrawAndClearWriteTheScreen := by
  unfold Obligations.OnlyDrawAndClearWriteTheScreen
  intro i s t h hdrw hcls row col
  obtain ⟨u, act, rfl, hu⟩ := exec_next_cases h
  rw [State.endCycle_eq]
  exact State.pixel_of_fb (hu.frame.fb hdrw hcls) row col

/-- Settles O15. -/
theorem onlyKeyWaitWritesWait : Obligations.OnlyKeyWaitWritesWait := by
  unfold Obligations.OnlyKeyWaitWritesWait
  exact fun _ _ _ => exec_wait

/-- Settles O17: the statement's condition on the instruction is `Instr.SparesFlag`. -/
theorem onlyFlagInstructionsWriteFlag : Obligations.OnlyFlagInstructionsWriteFlag := by
  unfold Obligations.OnlyFlagInstructionsWriteFlag
  intro i s t h hi
  have hspares : Instr.SparesFlag i := by cases i <;> exact hi
  obtain ⟨u, act, rfl, hu⟩ := exec_next_cases h
  rw [State.endCycle_eq]
  exact hu.frame.flag hspares

/-- Settles O18. -/
theorem noInstructionWritesHostState : Obligations.NoInstructionWritesHostState := by
  unfold Obligations.NoInstructionWritesHostState
  intro i s t h
  obtain ⟨u, act, rfl, hu⟩ := exec_next_cases h
  obtain ⟨hkey, hrand8, hinputs, hfree, hparams, hstatus⟩ := hu.frame.outside
  rw [State.endCycle_eq]
  exact ⟨hkey, hrand8, hinputs, hfree, hparams, hstatus⟩

/-- R33 where the PC action is not a jump: a wait keeps pc, and the premises bound a skip and an advance. -/
theorem PcAction.target_even_fetchable {act : PcAction} (h : act.sequential = true) {pc : Word}
    (heven : pc.toNat % 2 = 0) (hle : pc.toNat ≤ 0xFFE)
    (hact : (act.target pc = pc + 4 → pc.toNat ≤ 0xFFA) ∧ (act.target pc = pc + 2 → pc.toNat ≤ 0xFFC)) :
    (act.target pc).toNat % 2 = 0 ∧ (act.target pc).toNat ≤ 0xFFE := by
  obtain ⟨hskip, hadvance⟩ := hact
  rcases PcAction.target_of_sequential h pc with he | he | he
  · rw [he]; exact ⟨heven, hle⟩
  · have := hadvance he; rw [he]; bv_omega
  · have := hskip he; rw [he]; bv_omega

/-- Settles O26: by the target of each jump, the return address, and `PcAction.target_even_fetchable`. -/
theorem pcStaysEvenAndFetchable : Obligations.PcStaysEvenAndFetchable := by
  unfold Obligations.PcStaysEvenAndFetchable
  intro i s t h heven hle hi
  obtain ⟨u, act, rfl, hu⟩ := exec_next_cases h
  rw [State.endCycle_eq] at hi ⊢
  cases i
  case jp =>
    obtain ⟨-, rfl⟩ := hu
    simpa [PcAction.target] using hi
  case call =>
    obtain ⟨-, -, rfl⟩ := hu
    simpa [PcAction.target] using hi
  case jpV0 a =>
    obtain ⟨-, rfl⟩ := hu
    simpa [PcAction.target] using hi
  case ret =>
    obtain ⟨-, rfl, rfl⟩ := hu
    have htarget : (PcAction.target .advance s.popPc.pc).toNat = (s.slot s.sp).toNat + 2 := by
      simp only [PcAction.target, State.popPc_pc]; bv_omega
    simp only [htarget]
    omega
  all_goals
    have hpc := hu.frame.pc nofun
    have hseq := hu.frame.act nofun nofun nofun
    simp only [hpc] at hi ⊢
    exact PcAction.target_even_fetchable hseq heven hle hi

/-! ### Steps and sessions -/

/-- Settles O6. -/
theorem stepRunsTheDecodedInstruction : Obligations.StepRunsTheDecodedInstruction := by
  unfold Obligations.StepRunsTheDecodedInstruction
  intro s i hr hp hd
  have hi : decodeWord s.wordAtPc = i := by cases hd; rfl
  rw [step_of_fetch hr hp, hi]

/-- Settles O7. -/
theorem stepTakesOneInput : Obligations.StepTakesOneInput := by
  unfold Obligations.StepTakesOneInput
  constructor
  · intro s inp rest h
    simp only [State.takeInput, h]
  · intro s h
    simp only [State.takeInput, h]

/-- Settles O9. -/
theorem faultEndsTheSession : Obligations.FaultEndsTheSession := by
  unfold Obligations.FaultEndsTheSession
  constructor
  · intro s f h
    exact ⟨s.takeFault f, by simp only [sessionStep, h], State.takeFault_status s f⟩
  · intro s f h
    have hstep := step_of_faulted h
    have hstays : s.takeFault f = s := by simp only [State.takeFault, ← h]
    exact ⟨hstep, by simp only [sessionStep, hstep, hstays]⟩

/-! ### RND (R83) -/

theorem decodeWord_rnd (x : RegIx) (kk : Byte) : decodeWord (0xC#4 ++ x ++ kk) = .rnd x kk := by
  simp [decodeWord, decodeFields, dispatch, n1_xkk, x_xkk, kk_xkk]

/-- Settles O45. -/
theorem randomByteIsMasked : Obligations.RandomByteIsMasked := by
  unfold Obligations.RandomByteIsMasked
  intro x kk s
  refine ⟨decodeWord_rnd x kk, _, complete_eq _ _, fun k => ?_, rfl, registerCycle_endCycle s _ _, fun r hr => ?_⟩
  · rw [← BitVec.getLsbD_and]
    exact congrArg (BitVec.getLsbD · k) (s.readV_setV_self x _)
  · exact s.readV_setV_ne (fun e => hr (by simp [e])) _

end Sys2Proof.Machine

namespace Sys2Proof.Machine

/-! ### The canonical form of memory (R34)

A canonical memory is determined by what it reads: its lowest cell is the lowest address that does not read as
unlisted, and the rest is the same memory from the next address on. -/

section
variable {m m' : Memory} {lo lo' a : Nat} {v : Byte}

theorem Memory.wfFrom_cons : Memory.wfFrom lo ((a, v) :: m) = true ↔
    lo ≤ a ∧ a < Config.memSize ∧ v ≠ unlistedByte a ∧ m.wfFrom (a + 1) = true := by
  simp only [Memory.wfFrom, Bool.and_eq_true, decide_eq_true_eq, bne_iff_ne, and_assoc]

theorem Memory.read_cons_self : Memory.read ((a, v) :: m) a = v := if_pos rfl

theorem Memory.read_cons_ne {c : Nat} (h : a ≠ c) : Memory.read ((a, v) :: m) c = m.read c := if_neg h

/-- Where a memory reads other than unlisted is no lower than its lowest address. -/
theorem Memory.le_of_read_ne_unlisted (h : m.wfFrom lo = true) (hr : m.read a ≠ unlistedByte a) : lo ≤ a :=
  Nat.le_of_not_lt fun ha => hr (Memory.read_below h ha)

/-- A memory that reads like one whose lowest cell is at `a` has its own lowest address at most there. -/
theorem Memory.le_of_read_eq_cons (h : Memory.wfFrom lo ((a, v) :: m) = true) (h' : m'.wfFrom lo' = true)
    (hr : m'.read a = Memory.read ((a, v) :: m) a) : lo' ≤ a := by
  obtain ⟨-, -, hv, -⟩ := Memory.wfFrom_cons.mp h
  exact Memory.le_of_read_ne_unlisted h' (by rwa [hr, Memory.read_cons_self])

/-- Tails behind cells at the same address read alike when the whole memories do: at that address and below,
neither tail lists anything. -/
theorem Memory.read_tails_eq {u : Byte} (h : m.wfFrom (a + 1) = true) (h' : m'.wfFrom (a + 1) = true)
    (hr : ∀ c, Memory.read ((a, v) :: m) c = Memory.read ((a, u) :: m') c) (c : Nat) : m.read c = m'.read c := by
  by_cases hc : a = c
  · rw [Memory.read_below h (by omega), Memory.read_below h' (by omega)]
  · simpa only [Memory.read_cons_ne hc] using hr c

/-- The lower bounds may differ: each head bounds the other memory's, so both lists start at the same cell. -/
theorem Memory.eq_of_read_eq (h : m.wfFrom lo = true) (h' : m'.wfFrom lo' = true)
    (hr : ∀ c, m.read c = m'.read c) : m = m' := by
  induction m generalizing m' lo lo' with
  | nil =>
    cases m' with
    | nil => rfl
    | cons d m' => exact absurd (Memory.le_of_read_eq_cons (lo' := d.1 + 1) h' rfl (hr d.1)) (by omega)
  | cons c m ih =>
    cases m' with
    | nil => exact absurd (Memory.le_of_read_eq_cons (lo' := c.1 + 1) h rfl (hr c.1).symm) (by omega)
    | cons d m' =>
      obtain ⟨a, v⟩ := c
      obtain ⟨b, u⟩ := d
      obtain ⟨-, ha, hv, hm⟩ := Memory.wfFrom_cons.mp h
      obtain ⟨-, hb, hu, hm'⟩ := Memory.wfFrom_cons.mp h'
      have hba : b ≤ a :=
        Memory.le_of_read_eq_cons h (Memory.wfFrom_cons.mpr ⟨le_rfl, hb, hu, hm'⟩) (hr a).symm
      have hab : a ≤ b :=
        Memory.le_of_read_eq_cons h' (Memory.wfFrom_cons.mpr ⟨le_rfl, ha, hv, hm⟩) (hr b)
      obtain rfl : a = b := Nat.le_antisymm hab hba
      obtain rfl : v = u := by simpa only [Memory.read_cons_self] using hr a
      rw [ih hm hm' (Memory.read_tails_eq hm hm' hr)]

end

/-- Settles O27. -/
theorem canonicalMemoriesAreEqualWhenTheyReadAlike : Obligations.CanonicalMemoriesAreEqualWhenTheyReadAlike := by
  unfold Obligations.CanonicalMemoriesAreEqualWhenTheyReadAlike
  exact fun _ _ => Memory.eq_of_read_eq

/-! ### What writes memory (R34) -/

/-- Settles O16. -/
theorem onlyTwoInstructionsWriteMemory : Obligations.OnlyTwoInstructionsWriteMemory := by
  unfold Obligations.OnlyTwoInstructionsWriteMemory
  intro i s t h hbcd hstore
  obtain ⟨u, act, rfl, hu⟩ := exec_next_cases h
  rw [State.endCycle_eq]
  exact State.readMem_of_mem (hu.frame.mem hbcd hstore)

/-! ### The fetch (R37) and the word placed for it (log 11) -/

section
variable {s : State}

/-- A Running session whose pc cannot be fetched stops there (R37). -/
theorem step_of_fetch_out_of_range (hr : s.status = .running) (hp : Config.memSize ≤ s.pc.toNat + 1) :
    step s = .fault (.fetchOutOfRange s.pc) := by
  have hf : fetchWord s.takeInput = .fault (.fetchOutOfRange s.takeInput.pc) := fetchWord_fault (by simpa using hp)
  simp only [step, runStep, hr, runCycle, hf, andThen_fault, State.takeInput_pc]

@[simp] theorem State.placeWord_pc (w : Word) : (s.placeWord w).pc = s.pc := rfl
@[simp] theorem State.placeWord_status (w : Word) : (s.placeWord w).status = s.status := rfl

/-- The two bytes of a placed word, and every other byte as before. -/
theorem State.readMem_placeWord (hm : s.mem.wf = true) (hp : s.pc.toNat < Config.memSize) (w : Word) (a : Nat) :
    (s.placeWord w).readMem a =
      if s.pc.toNat + 1 = a then (bytesOfWord w).2 else if s.pc.toNat = a then (bytesOfWord w).1 else s.readMem a := by
  rw [State.placeWord, State.readMem_writeMem (Memory.wf_write hm hp _), State.readMem_writeMem hm]

/-- A placed word is the word at pc. -/
theorem State.wordAtPc_placeWord (hm : s.mem.wf = true) (hp : s.pc.toNat < Config.memSize) (w : Word) :
    (s.placeWord w).wordAtPc = w := by
  simp [State.wordAtPc, State.readMem_placeWord hm hp]

/-- The session made Running, as the placing of a word has it (log 11). -/
def State.resume (s : State) : State := { s with status := .running }

@[simp] theorem State.resume_pc : s.resume.pc = s.pc := rfl
@[simp] theorem State.resume_mem : s.resume.mem = s.mem := rfl
@[simp] theorem State.resume_status : s.resume.status = .running := rfl

/-- Where pc can be fetched, the placing of a word makes the session Running and stores the word there. -/
theorem State.withFetchWord_eq (hp : s.pc.toNat + 1 < Config.memSize) (w : Word) :
    s.withFetchWord 16 w.toNat = s.resume.placeWord w := by
  rw [State.withFetchWord, State.fetchable, if_pos hp, Nat.mod_eq_of_lt w.isLt, BitVec.ofNat_toNat, BitVec.setWidth_eq,
    State.resume]

end

/-- Settles O8. -/
theorem fetchPastMemoryFaults : Obligations.FetchPastMemoryFaults := by
  unfold Obligations.FetchPastMemoryFaults
  intro s hr hp
  exact step_of_fetch_out_of_range hr (Nat.succ_le_succ hp)

/-- Settles O11: the placed word is the word at pc, and it stands in the two bytes at pc alone. -/
theorem stepRunsThePlacedWord : Obligations.StepRunsThePlacedWord := by
  unfold Obligations.StepRunsThePlacedWord
  intro s w hm hp
  have hm' : s.resume.mem.wf = true := hm
  have hp' : s.resume.pc.toNat < Config.memSize := Nat.lt_of_succ_lt hp
  have hrun : (s.resume.placeWord w).status = .running := State.placeWord_status w
  rw [State.withFetchWord_eq hp]
  refine ⟨?_, State.placeWord_pc w, fun a ha => ?_⟩
  · rw [step_of_fetch hrun hp, State.wordAtPc_placeWord hm' hp']
  · have hhi : s.resume.pc.toNat ≠ a := by rintro rfl; simp at ha
    have hlo : s.resume.pc.toNat + 1 ≠ a := by rintro rfl; simp at ha
    rw [State.readMem_placeWord hm' hp', if_neg hlo, if_neg hhi, State.readMem_of_mem State.resume_mem]

end Sys2Proof.Machine

namespace Sys2Proof

/-! ### The shapes of a word, read off the word -/

theorem word_eq_nnn (w : Word) : w.extractLsb' 12 4 ++ w.extractLsb' 0 12 = w := by
  rw [BitVec.extractLsb'_append_extractLsb'_eq_extractLsb' (by decide), BitVec.extractLsb'_eq_self]

theorem word_eq_xkk (w : Word) : (w.extractLsb' 12 4 ++ w.extractLsb' 8 4 ++ w.extractLsb' 0 8 : Word) = w := by
  rw [BitVec.extractLsb'_append_extractLsb'_eq_extractLsb' (by decide),
    BitVec.extractLsb'_append_extractLsb'_eq_extractLsb' (by decide), BitVec.extractLsb'_eq_self]

/-! ### The two checks of well-formedness -/

/-- A SYS is well-formed when its word is neither CLS nor RET (R53, R58). -/
theorem sys_wellFormed_iff (nnn : Addr12) :
    (Instr.sys nnn).wellFormed = true ↔ (0x0#4 ++ nnn : Word) ≠ 0x00E0 ∧ (0x0#4 ++ nnn : Word) ≠ 0x00EE := by
  have hword (a : Addr12) : (0x0#4 ++ nnn : Word) = 0x0#4 ++ a ↔ nnn = a := BitVec.append_right_inj 0x0#4
  rw [show (0x00E0 : Word) = 0x0#4 ++ (0x0E0 : Addr12) from rfl,
    show (0x00EE : Word) = 0x0#4 ++ (0x0EE : Addr12) from rfl, Ne, Ne, hword, hword]
  simp [Instr.wellFormed]

theorem unrecognisedWord_iff (w : Word) : unrecognisedWord w = true ↔
    (w.extractLsb' 12 4 = 0x5 ∧ w.extractLsb' 0 4 ≠ 0x0) ∨
    (w.extractLsb' 12 4 = 0x8 ∧ w.extractLsb' 0 4 ∈ [0x8, 0x9, 0xA, 0xB, 0xC, 0xD, 0xF]) ∨
    (w.extractLsb' 12 4 = 0x9 ∧ w.extractLsb' 0 4 ≠ 0x0) ∨
    (w.extractLsb' 12 4 = 0xE ∧ w.extractLsb' 0 8 ∉ [0x9E, 0xA1]) ∨
    (w.extractLsb' 12 4 = 0xF ∧ w.extractLsb' 0 8 ∉ [0x07, 0x0A, 0x15, 0x18, 0x1E, 0x29, 0x33, 0x55, 0x65]) := by
  simp [unrecognisedWord, or_assoc, and_assoc]

/-! ### Decoding an encoding -/

theorem decodeWord_of_unrecognisedWord {w : Word} (h : unrecognisedWord w = true) :
    decodeWord w = .unrecognised w := by
  rcases (unrecognisedWord_iff w).mp h with ⟨h1, h4⟩ | ⟨h1, h4⟩ | ⟨h1, h4⟩ | ⟨h1, hk⟩ | ⟨h1, hk⟩
  · simpa [decodeWord, decodeFields, dispatch, h1] using h4
  · simp only [List.mem_cons, List.not_mem_nil, or_false] at h4
    rcases h4 with h4 | h4 | h4 | h4 | h4 | h4 | h4 <;>
      simp [decodeWord, decodeFields, dispatch, dispatch8, h1, h4]
  · simpa [decodeWord, decodeFields, dispatch, h1] using h4
  · simp_all [decodeWord, decodeFields, dispatch, dispatchE]
  · simp_all [decodeWord, decodeFields, dispatch, dispatchF]

theorem decodeWord_sys {nnn : Addr12} (h : (Instr.sys nnn).wellFormed = true) :
    decodeWord (0x0#4 ++ nnn) = .sys nnn := by
  obtain ⟨hcls, hret⟩ := (sys_wellFormed_iff nnn).mp h
  have hgroup : decodeWord (0x0#4 ++ nnn) = dispatch0 (0x0#4 ++ nnn) (decodeFields (0x0#4 ++ nnn)) := by
    simp [decodeWord, dispatch, decodeFields, n1_nnn]
  rw [hgroup, dispatch0, if_neg hcls, if_neg hret]
  exact congrArg Instr.sys (nnn_nnn _ _)

/-- Encoding loses nothing of a well-formed instruction: the shapes of R48 give the dispatcher its nibbles and the
operands. -/
theorem decodeWord_encodeWord {i : Instr} (h : i.wellFormed = true) : decodeWord (encodeWord i) = i := by
  cases i with
  | cls | ret => decide
  | sys nnn => exact decodeWord_sys h
  | unrecognised w => exact decodeWord_of_unrecognisedWord h
  | jp _ | call _ | ldI _ | jpV0 _ =>
    simp [encodeWord, decodeWord, decodeFields, dispatch, n1_nnn, nnn_nnn]
  | seVxKk _ _ | sneVxKk _ _ | ldVxKk _ _ | addVxKk _ _ | rnd _ _ =>
    simp [encodeWord, decodeWord, decodeFields, dispatch, n1_xkk, x_xkk, kk_xkk]
  | skp _ | sknp _ =>
    simp [encodeWord, decodeWord, decodeFields, dispatch, dispatchE, n1_xkk, x_xkk, kk_xkk]
  | ldVxDt _ | ldVxK _ | ldDtVx _ | ldStVx _ | addIVx _ | ldFVx _ | ldBVx _ | ldMemVx _ | ldVxMem _ =>
    simp [encodeWord, decodeWord, decodeFields, dispatch, dispatchF, n1_xkk, x_xkk, kk_xkk]
  | seVxVy _ _ | sneVxVy _ _ | drw _ _ _ =>
    simp [encodeWord, decodeWord, decodeFields, dispatch, n1_xyn, x_xyn, y_xyn, n_xyn]
  | ldVxVy _ _ | orVxVy _ _ | andVxVy _ _ | xorVxVy _ _ | addVxVy _ _ | subVxVy _ _ | shrVxVy _ _
  | subnVxVy _ _ | shlVxVy _ _ =>
    simp [encodeWord, decodeWord, decodeFields, dispatch, dispatch8, n1_xyn, x_xyn, y_xyn, n_xyn]

/-- Settles O1: the bytes hold the word of the encoding, and decoding it gives the instruction back. -/
theorem decodingAnEncodingGivesTheInstruction : Obligations.DecodingAnEncodingGivesTheInstruction := by
  unfold Obligations.DecodingAnEncodingGivesTheInstruction
  intro i rest h
  rw [decode_encode_eq, decodeWord_encodeWord h]

/-! ### Encoding a decoding -/

theorem eq_F_of_not_mem :
    ∀ p : BitVec 4, p ∉ [0x0, 0x1, 0x2, 0x3, 0x4, 0x5, 0x6, 0x7, 0x8, 0x9, 0xA, 0xB, 0xC, 0xD, 0xE] → p = 0xF := by
  decide

/-- A nibble N4 that no 8xyN pattern takes is one of those R55 lists. -/
theorem mem_unrecognised8 :
    ∀ n : BitVec 4, n ∉ [0x0, 0x1, 0x2, 0x3, 0x4, 0x5, 0x6, 0x7, 0xE] → n ∈ [0x8, 0x9, 0xA, 0xB, 0xC, 0xD, 0xF] := by
  decide

/-- `i` is a well-formed instruction whose encoding is `w`. -/
structure Instr.Encodes (i : Instr) (w : Word) : Prop where
  wellFormed : i.wellFormed = true
  word : encodeWord i = w

section
variable {w : Word} {i : Instr} {p : BitVec 4}

theorem Instr.Encodes.of_nnn (hp : w.extractLsb' 12 4 = p) (hi : i.wellFormed = true)
    (he : encodeWord i = p ++ w.extractLsb' 0 12) : i.Encodes w where
  wellFormed := hi
  word := by rw [he, ← hp, word_eq_nnn]

theorem Instr.Encodes.of_xkk {kk : Byte} (hp : w.extractLsb' 12 4 = p) (hk : w.extractLsb' 0 8 = kk)
    (hi : i.wellFormed = true) (he : encodeWord i = p ++ w.extractLsb' 8 4 ++ kk) : i.Encodes w where
  wellFormed := hi
  word := by rw [he, ← hp, ← hk, word_eq_xkk]

theorem Instr.Encodes.of_xyn {n : BitVec 4} (hp : w.extractLsb' 12 4 = p) (hn : w.extractLsb' 0 4 = n)
    (hi : i.wellFormed = true) (he : encodeWord i = p ++ w.extractLsb' 8 4 ++ w.extractLsb' 4 4 ++ n) :
    i.Encodes w where
  wellFormed := hi
  word := by rw [he, ← hp, ← hn, ← word_eq_nibbles]

theorem Instr.Encodes.ite {c : Prop} [Decidable c] {j : Instr} (hi : c → i.Encodes w) (hj : ¬ c → j.Encodes w) :
    (if c then i else j).Encodes w := by
  split
  · exact hi ‹c›
  · exact hj ‹¬ c›

theorem unrecognised_encodes (h : unrecognisedWord w = true) : (Instr.unrecognised w).Encodes w := ⟨h, rfl⟩

theorem dispatch0_encodes (hp : w.extractLsb' 12 4 = 0x0) : (dispatch0 w (decodeFields w)).Encodes w := by
  unfold dispatch0
  split_ifs with hcls hret
  · exact ⟨rfl, hcls.symm⟩
  · exact ⟨rfl, hret.symm⟩
  · have hw : 0x0#4 ++ w.extractLsb' 0 12 = w := by rw [← word_eq_nnn w, hp, nnn_nnn]; rfl
    exact ⟨(sys_wellFormed_iff _).mpr (by simpa [decodeFields, hw] using ⟨hcls, hret⟩), hw⟩

theorem dispatch8_encodes (hp : w.extractLsb' 12 4 = 0x8) : (dispatch8 w (decodeFields w)).Encodes w := by
  unfold dispatch8
  iterate 9 refine .ite (.of_xyn hp · rfl rfl) fun _ => ?_
  have hn : w.extractLsb' 0 4 ∈ [0x8, 0x9, 0xA, 0xB, 0xC, 0xD, 0xF] :=
    mem_unrecognised8 _ (by simp_all [decodeFields])
  exact unrecognised_encodes ((unrecognisedWord_iff w).mpr (.inr (.inl ⟨hp, hn⟩)))

theorem dispatchE_encodes (hp : w.extractLsb' 12 4 = 0xE) : (dispatchE w (decodeFields w)).Encodes w := by
  unfold dispatchE
  iterate 2 refine .ite (.of_xkk hp · rfl rfl) fun _ => ?_
  exact unrecognised_encodes ((unrecognisedWord_iff w).mpr (by simp_all [decodeFields]))

theorem dispatchF_encodes (hp : w.extractLsb' 12 4 = 0xF) : (dispatchF w (decodeFields w)).Encodes w := by
  unfold dispatchF
  iterate 9 refine .ite (.of_xkk hp · rfl rfl) fun _ => ?_
  exact unrecognised_encodes ((unrecognisedWord_iff w).mpr (by simp_all [decodeFields]))

end

/-- The dispatcher, nibble by nibble of N1 (R53). -/
theorem decodeWord_encodes (w : Word) : (decodeWord w).Encodes w := by
  unfold decodeWord dispatch
  refine
    .ite dispatch0_encodes fun _ =>
    .ite (.of_nnn · rfl rfl) fun _ =>
    .ite (.of_nnn · rfl rfl) fun _ =>
    .ite (.of_xkk · rfl rfl rfl) fun _ =>
    .ite (.of_xkk · rfl rfl rfl) fun _ =>
    .ite (fun h5 => .ite (.of_xyn h5 · rfl rfl) fun hn => unrecognised_encodes ?five) fun _ =>
    .ite (.of_xkk · rfl rfl rfl) fun _ =>
    .ite (.of_xkk · rfl rfl rfl) fun _ =>
    .ite dispatch8_encodes fun _ =>
    .ite (fun h9 => .ite (.of_xyn h9 · rfl rfl) fun hn => unrecognised_encodes ?nine) fun _ =>
    .ite (.of_nnn · rfl rfl) fun _ =>
    .ite (.of_nnn · rfl rfl) fun _ =>
    .ite (.of_xkk · rfl rfl rfl) fun _ =>
    .ite (.of_xyn · rfl rfl rfl) fun _ =>
    .ite dispatchE_encodes fun _ => dispatchF_encodes ?fifteen
  case five => exact (unrecognisedWord_iff w).mpr (.inl ⟨h5, hn⟩)
  case nine => exact (unrecognisedWord_iff w).mpr (.inr (.inr (.inl ⟨h9, hn⟩)))
  case fifteen => exact eq_F_of_not_mem _ (by simp_all [decodeFields])

/-- Settles O2: every branch of the dispatcher answers a well-formed instruction of the word's own shape. -/
theorem encodingADecodingGivesTheWord : Obligations.EncodingADecodingGivesTheWord := by
  unfold Obligations.EncodingADecodingGivesTheWord
  intro w
  obtain ⟨hwf, hword⟩ := decodeWord_encodes w
  exact ⟨hwf, hword⟩

/-! ### The unrecognised words (R55) -/

/-- Settles O4: the check of well-formedness is R55's list, and encoding inverts decoding on it. -/
theorem unrecognisedWordsAreThoseListed : Obligations.UnrecognisedWordsAreThoseListed := by
  unfold Obligations.UnrecognisedWordsAreThoseListed
  intro w
  rw [← unrecognisedWord_iff]
  refine ⟨fun h => ?_, decodeWord_of_unrecognisedWord⟩
  have hwf := (decodeWord_encodes w).wellFormed
  rwa [h] at hwf

/-- Settles O5. -/
theorem exampleWordsDecode : Obligations.ExampleWordsDecode := by
  unfold Obligations.ExampleWordsDecode
  decide

/-! ### The opcode map (R53, R54) -/

/-- A word that fits a row agrees with its value on every field the row's mask fixes. -/
theorem OpcodeRow.extract_of_fits {r : OpcodeRow} {w : Word} {start len : Nat} (h : r.fits w = true)
    (hm : r.mask.extractLsb' start len = BitVec.allOnes len) :
    w.extractLsb' start len = r.value.extractLsb' start len := by
  rw [← beq_iff_eq.mp h, BitVec.extractLsb'_and, hm, BitVec.and_allOnes]

/-- `find?` finds an element that `p` takes when `p` takes none of those the relation `R` puts before it. -/
theorem find?_eq_some_of_pairwise {α : Type} {R : α → α → Prop} {p : α → Bool} {a : α} {l : List α}
    (hl : l.Pairwise R) (ha : a ∈ l) (hp : p a = true) (hR : ∀ b, R b a → ¬ p b = true) : l.find? p = some a := by
  induction hl with
  | nil => cases ha
  | cons hb _ ih =>
    rcases List.mem_cons.mp ha with rfl | ha
    · exact List.find?_cons_of_pos hp
    · exact (List.find?_cons_of_neg (hR _ (hb _ ha))).trans (ih ha)

/-- No word fits a row other than 0nnn and the fallback together with an earlier row (R53). -/
theorem opcodeRows_pairwise : opcodeRows.Pairwise fun b a => a.value ≠ 0 → b.conflicts a = true := by decide

theorem row_mem_opcodeRows (i : Instr) : i.row ∈ opcodeRows := by
  cases i <;> exact List.mem_of_elem_eq_true rfl

theorem selectRow_of_fits {r : OpcodeRow} {w : Word} (hr : r ∈ opcodeRows) (hv : r.value ≠ 0)
    (h : r.fits w = true) : selectRow w = some r :=
  find?_eq_some_of_pairwise opcodeRows_pairwise hr h fun _ hc hb => OpcodeRow.conflicts_sound (hc hv) w ⟨hb, h⟩

/-! A word that fits a row other than the fallback is not in the list of R55: the row fixes every field that R55
reads, and the row's own value is not in the list. -/

section
variable {r : OpcodeRow} (hr : r ∈ opcodeRows.take 35)
include hr

theorem mask_n1_of_mem : r.mask.extractLsb' 12 4 = BitVec.allOnes 4 := by
  revert r; decide

theorem mask_n4_of_mem (hn : r.value.extractLsb' 12 4 ∈ [0x5, 0x8, 0x9]) :
    r.mask.extractLsb' 0 4 = BitVec.allOnes 4 := by
  revert r; decide

theorem mask_kk_of_mem (hn : r.value.extractLsb' 12 4 ∈ [0xE, 0xF]) :
    r.mask.extractLsb' 0 8 = BitVec.allOnes 8 := by
  revert r; decide

theorem not_unrecognisedWord_value_of_mem : ¬ unrecognisedWord r.value = true := by
  revert r; decide

theorem not_fits_of_unrecognisedWord {w : Word} (h : unrecognisedWord w = true) : ¬ r.fits w = true := by
  intro hfit
  have h1 : w.extractLsb' 12 4 = r.value.extractLsb' 12 4 := OpcodeRow.extract_of_fits hfit (mask_n1_of_mem hr)
  have h4 (hn : w.extractLsb' 12 4 ∈ [0x5, 0x8, 0x9]) : w.extractLsb' 0 4 = r.value.extractLsb' 0 4 :=
    OpcodeRow.extract_of_fits hfit (mask_n4_of_mem hr (h1 ▸ hn))
  have hk (hn : w.extractLsb' 12 4 ∈ [0xE, 0xF]) : w.extractLsb' 0 8 = r.value.extractLsb' 0 8 :=
    OpcodeRow.extract_of_fits hfit (mask_kk_of_mem hr (h1 ▸ hn))
  apply not_unrecognisedWord_value_of_mem hr
  rw [unrecognisedWord_iff] at h ⊢
  rw [← h1]
  rcases h with ⟨e, hn⟩ | ⟨e, hn⟩ | ⟨e, hn⟩ | ⟨e, hn⟩ | ⟨e, hn⟩
  · exact .inl ⟨e, h4 (by simp [e]) ▸ hn⟩
  · exact .inr (.inl ⟨e, h4 (by simp [e]) ▸ hn⟩)
  · exact .inr (.inr (.inl ⟨e, h4 (by simp [e]) ▸ hn⟩))
  · exact .inr (.inr (.inr (.inl ⟨e, hk (by simp [e]) ▸ hn⟩)))
  · exact .inr (.inr (.inr (.inr ⟨e, hk (by simp [e]) ▸ hn⟩)))

end

theorem selectRow_unrecognised {w : Word} (h : unrecognisedWord w = true) :
    selectRow w = some (Instr.unrecognised w).row := by
  have hnone : (opcodeRows.take 35).find? (fun r => r.fits w) = none :=
    List.find?_eq_none.mpr fun r hr => not_fits_of_unrecognisedWord hr h
  rw [selectRow, ← List.take_append_drop 35 opcodeRows, List.find?_append, hnone, Option.none_or]
  exact List.find?_cons_of_pos (Laws.EncodedRow.unrecognised w h)

theorem fits_full_mask_iff {p : String} {v w : Word} : (⟨p, 0xFFFF, v⟩ : OpcodeRow).fits w = true ↔ w = v := by
  rw [OpcodeRow.fits, beq_iff_eq]
  exact iff_of_eq (congrArg (· = v) BitVec.and_allOnes)

theorem selectRow_sys {nnn : Addr12} (h : (Instr.sys nnn).wellFormed = true) :
    selectRow (0x0#4 ++ nnn) = some (Instr.sys nnn).row := by
  obtain ⟨hcls, hret⟩ := (sys_wellFormed_iff nnn).mp h
  calc selectRow (0x0#4 ++ nnn)
      _ = (opcodeRows.drop 1).find? _ := List.find?_cons_of_neg (fits_full_mask_iff.not.mpr hcls)
      _ = (opcodeRows.drop 2).find? _ := List.find?_cons_of_neg (fits_full_mask_iff.not.mpr hret)
      _ = some (Instr.sys nnn).row := List.find?_cons_of_pos (Laws.EncodedRow.sys nnn h)

open Laws.EncodedRow in
theorem row_fits_encodeWord : ∀ i : Instr, Laws.EncodedRow.Statement i
  | .cls => cls | .ret => ret | .sys nnn => sys nnn | .jp nnn => jp nnn | .call nnn => call nnn
  | .seVxKk x kk => seVxKk x kk | .sneVxKk x kk => sneVxKk x kk | .seVxVy x y => seVxVy x y
  | .ldVxKk x kk => ldVxKk x kk | .addVxKk x kk => addVxKk x kk | .ldVxVy x y => ldVxVy x y
  | .orVxVy x y => orVxVy x y | .andVxVy x y => andVxVy x y | .xorVxVy x y => xorVxVy x y
  | .addVxVy x y => addVxVy x y | .subVxVy x y => subVxVy x y | .shrVxVy x y => shrVxVy x y
  | .subnVxVy x y => subnVxVy x y | .shlVxVy x y => shlVxVy x y | .sneVxVy x y => sneVxVy x y
  | .ldI nnn => ldI nnn | .jpV0 nnn => jpV0 nnn | .rnd x kk => rnd x kk | .drw x y n => drw x y n
  | .skp x => skp x | .sknp x => sknp x | .ldVxDt x => ldVxDt x | .ldVxK x => ldVxK x | .ldDtVx x => ldDtVx x
  | .ldStVx x => ldStVx x | .addIVx x => addIVx x | .ldFVx x => ldFVx x | .ldBVx x => ldBVx x
  | .ldMemVx x => ldMemVx x | .ldVxMem x => ldVxMem x | .unrecognised w => unrecognised w

theorem selectRow_encodeWord {i : Instr} (h : i.wellFormed = true) : selectRow (encodeWord i) = some i.row := by
  cases i with
  | sys nnn => exact selectRow_sys h
  | unrecognised w => exact selectRow_unrecognised h
  | _ => exact selectRow_of_fits (row_mem_opcodeRows _) (by simp [Instr.row]) (row_fits_encodeWord _ h)

/-- Settles O3: every word is the encoding of what it decodes to, and an encoding selects its own row. -/
theorem dispatchSelectsFirstMatchingRow : Obligations.DispatchSelectsFirstMatchingRow := by
  unfold Obligations.DispatchSelectsFirstMatchingRow
  intro w
  obtain ⟨hwf, hword⟩ := decodeWord_encodes w
  rw [← selectRow_encodeWord hwf, hword]

end Sys2Proof

namespace Sys2Proof.Machine

/-! ### The fallback (R55) -/

/-- Settles O35: the cycle has no handler of its own, so only its end changes the state. -/
theorem unrecognisedWordIsLogged : Obligations.UnrecognisedWordIsLogged := by
  unfold Obligations.UnrecognisedWordIsLogged
  intro w s
  refine ⟨s.endCycle .advance (some w), rfl, ?_⟩
  have hrec := emitsRecord_endCycle s .advance (some w)
  rw [State.endCycle_eq] at hrec ⊢
  exact ⟨rfl, hrec, countedDown_countdown s.dt, countedDown_countdown s.st, ⟨rfl, rfl, rfl, rfl, rfl, rfl⟩,
    fun _ _ => rfl, rfl, ⟨rfl, fun _ => rfl⟩, rfl, fun _ _ => rfl, fun _ => rfl⟩

end Sys2Proof.Machine

namespace Sys2Proof.Machine

/-! ### Control flow (R60 to R68)

A jump, a skip and a no-op leave everything but pc to the end of the cycle; RET and CALL also write SP and the
stack. Each of the two frames is stated once. -/

section
variable (s : State)

theorem State.endCycle_pc (act : PcAction) (log : Option Word) : (s.endCycle act log).pc = act.target s.pc := by
  rw [State.endCycle_eq]

/-- A handler that writes nothing has its PC action as its whole effect. -/
theorem complete_movesPcOnly (act : PcAction) :
    ∃ t, complete act s = .next t ∧ t.pc = act.target s.pc ∧ RegisterCycle s t ∧ SameRegsBut [] s t :=
  ⟨_, complete_eq s act, s.endCycle_pc act none, registerCycle_endCycle s s.v act,
    fun r _ => State.readV_of_v (by rw [State.endCycle_eq]) r⟩

/-- The four compare-and-skip instructions: `P` is the spec's condition for the skip, `Q` the one for the advance. -/
theorem skipIf_movesPcOnly {P Q : Prop} {c : Bool} (hP : P → c = true) (hQ : Q → c = false) :
    ∃ t, skipIf c s = .next t ∧ (P → t.pc = s.pc + 4) ∧ (Q → t.pc = s.pc + 2) ∧
      RegisterCycle s t ∧ SameRegsBut [] s t := by
  obtain ⟨t, hrun, hpc, hframe⟩ := complete_movesPcOnly s (if c then .skip else .advance)
  refine ⟨t, hrun, fun h => ?_, fun h => ?_, hframe⟩
  · rw [hpc, hP h]; rfl
  · rw [hpc, hQ h]; rfl

end

/-- A cycle whose handler wrote pc, SP and the stack only. -/
theorem stackCycle_endCycle {s t : State} {pc : Word} {sp : BitVec 4} {stack : Vector Word 16} {act : PcAction}
    (ht : t = State.endCycle { s with pc := pc, sp := sp, stack := stack } act none) :
    PlainCycle s t ∧ SameRegsBut [] s t ∧ SameIndex s t ∧ SameWait s t ∧ SameScreen s t ∧ SameMemory s t := by
  have hrec : EmitsRecord t none := ht ▸ emitsRecord_endCycle _ act none
  rw [State.endCycle_eq] at ht
  subst ht
  exact ⟨⟨countedDown_countdown s.dt, countedDown_countdown s.st, hrec, ⟨rfl, rfl, rfl, rfl, rfl, rfl⟩⟩,
    fun _ _ => rfl, rfl, rfl, fun _ _ => rfl, fun _ => rfl⟩

section
variable {s : State}

theorem exec_ret (h : s.sp ≠ 0) : exec .ret s = .next (s.popPc.endCycle .advance none) := if_neg h

theorem exec_ret_fault (h : s.sp = 0) : exec .ret s = .fault (.stackUnderflow s.pc) := if_pos h

theorem exec_call (h : s.sp ≠ 15) (nnn : Addr12) :
    exec (.call nnn) s = .next ((s.push s.pc).endCycle (.jump (absTarget nnn)) none) := if_neg h

theorem exec_call_fault (h : s.sp = 15) (nnn : Addr12) :
    exec (.call nnn) s = .fault (.stackOverflow s.pc) := if_pos h

end

/-- Settles O28: the pop leaves the saved address in pc, and the advance of the cycle adds 2 to it. -/
theorem returnResumesAfterTheCall : Obligations.ReturnResumesAfterTheCall := by
  unfold Obligations.ReturnResumesAfterTheCall
  intro s
  refine ⟨fun hsp => ⟨_, exec_ret hsp, State.endCycle_pc _ _ _, ?_, fun k => ?_, stackCycle_endCycle rfl⟩,
    exec_ret_fault⟩
  · rw [State.endCycle_eq, State.popPc_sp]
    bv_omega
  · rw [State.endCycle_eq]
    exact s.popPc_slot k

/-- Settles O31: SP is not 15, so the incremented SP does not wrap, and the push writes its slot alone. -/
theorem callPushesItsOwnAddress : Obligations.CallPushesItsOwnAddress := by
  unfold Obligations.CallPushesItsOwnAddress
  intro nnn s
  refine ⟨fun hsp => ⟨_, exec_call hsp nnn, ?_, ?_, ?_, fun k hk => ?_, stackCycle_endCycle rfl⟩,
    fun hsp => exec_call_fault hsp nnn⟩
  · rw [State.endCycle_pc]
    exact absTarget_toNat nnn
  · rw [State.endCycle_eq, State.push_sp]
    bv_omega
  · rw [State.endCycle_eq]
    exact (s.push_slot s.pc (s.sp + 1)).trans (if_pos rfl)
  · rw [State.endCycle_eq] at hk ⊢
    exact (s.push_slot s.pc k).trans (if_neg hk.symm)

/-- Settles O29. -/
theorem sysIsANoOp : Obligations.SysIsANoOp := by
  unfold Obligations.SysIsANoOp
  intro nnn s
  exact complete_movesPcOnly s .advance

/-- Settles O30. -/
theorem jumpSetsPc : Obligations.JumpSetsPc := by
  unfold Obligations.JumpSetsPc
  intro nnn s
  obtain ⟨t, hrun, hpc, hframe⟩ := complete_movesPcOnly s (.jump (absTarget nnn))
  exact ⟨decodeWord_encodeWord (i := .jp nnn) rfl, t, hrun, hpc ▸ absTarget_toNat nnn, hframe⟩

/-- Settles O34: the sum of a 12-bit and an 8-bit value does not wrap in 16 bits. -/
theorem offsetJumpAddsV0 : Obligations.OffsetJumpAddsV0 := by
  unfold Obligations.OffsetJumpAddsV0
  intro nnn s
  obtain ⟨t, hrun, hpc, hframe⟩ := complete_movesPcOnly s (.jump (s.offsetTarget nnn))
  exact ⟨decodeWord_encodeWord (i := .jpV0 nnn) rfl, t, hrun, hpc ▸ s.offsetTarget_toNat nnn, hframe⟩

/-- Settles O32. -/
theorem skipsCompareWithImmediate : Obligations.SkipsCompareWithImmediate := by
  unfold Obligations.SkipsCompareWithImmediate
  intro x kk s
  exact ⟨decodeWord_encodeWord (i := .seVxKk x kk) rfl, decodeWord_encodeWord (i := .sneVxKk x kk) rfl,
    skipIf_movesPcOnly s beq_iff_eq.mpr beq_eq_false_iff_ne.mpr,
    skipIf_movesPcOnly s bne_iff_ne.mpr bne_eq_false_iff_eq.mpr⟩

/-- Settles O33: with N4 other than 0 the words are on R55's list. -/
theorem skipsCompareRegisters : Obligations.SkipsCompareRegisters := by
  unfold Obligations.SkipsCompareRegisters
  intro x y s
  refine ⟨decodeWord_encodeWord (i := .seVxVy x y) rfl, decodeWord_encodeWord (i := .sneVxVy x y) rfl,
    fun n hn => ⟨?_, ?_⟩, skipIf_movesPcOnly s beq_iff_eq.mpr beq_eq_false_iff_ne.mpr,
    skipIf_movesPcOnly s bne_iff_ne.mpr bne_eq_false_iff_eq.mpr⟩
  · exact decodeWord_of_unrecognisedWord ((unrecognisedWord_iff _).mpr
      (.inl ⟨n1_xyn _ _ _ _, (n_xyn _ _ _ _).trans_ne hn⟩))
  · exact decodeWord_of_unrecognisedWord ((unrecognisedWord_iff _).mpr
      (.inr (.inr (.inl ⟨n1_xyn _ _ _ _, (n_xyn _ _ _ _).trans_ne hn⟩))))

end Sys2Proof.Machine

namespace Sys2Proof.Machine

/-! ### Refusals (R70, R104)

A handler is never refused past the guard of the aliased-VF cases, and the guard refuses exactly those cases. -/

/-- The handler ends in a state, a value or a fault. -/
def NeverRefused {α : Type} (o : Result α) : Prop := ∀ r, o ≠ .refused r

section
variable {α β : Type}

theorem neverRefused_next (a : α) : NeverRefused (.next a) := nofun

theorem NeverRefused.andThen {o : Result α} {f : α → Result β} (ho : NeverRefused o)
    (hf : ∀ a, NeverRefused (f a)) : NeverRefused (andThen o f) := fun r h => by
  obtain h | ⟨a, -, h⟩ := andThen_eq_refused h
  · exact ho r h
  · exact hf a r h

/-- A check that faults where it fails. -/
theorem NeverRefused.ite_fault {c : Prop} [Decidable c] {f : Fault} {o : Result α} (ho : NeverRefused o) :
    NeverRefused (if c then .fault f else o) := by
  split
  · exact nofun
  · exact ho

end

section
variable (s : State)

theorem complete_neverRefused (act : PcAction) : NeverRefused (complete act s) := neverRefused_next _

theorem skipIf_neverRefused (c : Bool) : NeverRefused (skipIf c s) := complete_neverRefused s _

theorem loadByte_neverRefused (a : Nat) : NeverRefused (loadByte s a) := by
  unfold loadByte
  split <;> exact nofun

theorem storeByte_neverRefused (a : Nat) (b : Byte) : NeverRefused (storeByte s a b) := by
  unfold storeByte
  split <;> exact nofun

theorem keyState_neverRefused (k : Byte) : NeverRefused (keyState s k) := by
  unfold keyState
  split <;> exact nofun

theorem storeRegs_neverRefused (count i : Nat) : NeverRefused (storeRegs count i s) := by
  induction count generalizing i s with
  | zero => exact neverRefused_next s
  | succ count ih => exact (storeByte_neverRefused s _ _).andThen fun t => ih t (i + 1)

theorem loadRegs_neverRefused (count i : Nat) : NeverRefused (loadRegs count i s) := by
  induction count generalizing i s with
  | zero => exact neverRefused_next s
  | succ count ih => exact (loadByte_neverRefused s _).andThen fun b => ih _ (i + 1)

theorem drawRows_neverRefused (X Y : Byte) (count r : Nat) : NeverRefused (drawRows X Y count r s) := by
  induction count generalizing r s with
  | zero => exact neverRefused_next s
  | succ count ih => exact (loadByte_neverRefused s _).andThen fun b => ih _ (r + 1)

theorem execLdVxK_neverRefused (x : RegIx) : NeverRefused (execLdVxK x s) := by
  unfold execLdVxK
  split
  · exact complete_neverRefused _ _
  · split <;> exact complete_neverRefused _ _

end

theorem aliasXY_iff {x y : RegIx} : aliasXY x y = true ↔ x = regF ∨ y = regF := by simp [aliasXY]

theorem aliasX_iff {x : RegIx} : aliasX x = true ↔ x = regF := beq_iff_eq

/-- The aliased-VF cases (R70). -/
def Instr.isVfAlias : Instr → Bool
  | .subVxVy x y | .subnVxVy x y | .drw x y _ => aliasXY x y
  | .shrVxVy x _ | .shlVxVy x _ => aliasX x
  | _ => false

/-- R70's list of the aliased-VF cases. -/
theorem Instr.isVfAlias_iff (i : Instr) : Instr.isVfAlias i = true ↔
    (∃ x y, (i = .subVxVy x y ∨ i = .subnVxVy x y) ∧ (x = regF ∨ y = regF)) ∨
    (∃ y, i = .shrVxVy regF y ∨ i = .shlVxVy regF y) ∨
    (∃ x y n, i = .drw x y n ∧ (x = regF ∨ y = regF)) := by
  cases i <;> simp [Instr.isVfAlias, aliasXY_iff, aliasX_iff]

theorem unlessAliasRefused_refused_iff {isAlias : Bool} {s : State} {o : Result State} (ho : NeverRefused o) :
    (∃ r, unlessAliasRefused isAlias s o = .refused r) ↔ s.params.vfAlias = .refuse ∧ isAlias = true := by
  constructor
  · rintro ⟨r, h⟩
    obtain ⟨heq, -⟩ | ⟨-, ha, hp⟩ := unlessAliasRefused_cases isAlias s o
    · exact absurd (heq.symm.trans h) (ho r)
    · exact ⟨hp, ha⟩
  · rintro ⟨hp, ha⟩
    exact ⟨_, unlessAliasRefused_refuses ha hp⟩

theorem NeverRefused.unguarded {s : State} {o : Result State} (ho : NeverRefused o) :
    ∃ o', NeverRefused o' ∧ o = unlessAliasRefused false s o' :=
  ⟨o, ho, (unlessAliasRefused_runs (.inl rfl)).symm⟩

/-- Every instruction is a handler that is never refused, behind the guard of its aliased-VF cases. -/
theorem exec_eq_unlessAliasRefused (i : Instr) (s : State) :
    ∃ o, NeverRefused o ∧ exec i s = unlessAliasRefused (Instr.isVfAlias i) s o := by
  cases i
  case subVxVy | shrVxVy | subnVxVy | shlVxVy => exact ⟨_, complete_neverRefused _ .advance, rfl⟩
  case drw =>
    exact ⟨_, (drawRows_neverRefused _ _ _ _ _).andThen fun u => complete_neverRefused u .advance, rfl⟩
  case seVxKk | sneVxKk | seVxVy | sneVxVy => exact (skipIf_neverRefused s _).unguarded
  case skp | sknp => exact ((keyState_neverRefused s _).andThen fun _ => skipIf_neverRefused s _).unguarded
  case ret => exact ((complete_neverRefused s.popPc .advance).ite_fault).unguarded
  case call nnn => exact ((complete_neverRefused (s.push s.pc) (.jump (absTarget nnn))).ite_fault).unguarded
  case addIVx => exact ((complete_neverRefused _ .advance).ite_fault).unguarded
  case ldBVx =>
    exact ((storeByte_neverRefused s _ _).andThen fun s1 => (storeByte_neverRefused s1 _ _).andThen fun s2 =>
      (storeByte_neverRefused s2 _ _).andThen fun u => complete_neverRefused u .advance).unguarded
  case ldMemVx =>
    exact ((storeRegs_neverRefused s _ _).andThen fun u => complete_neverRefused u .advance).unguarded
  case ldVxMem =>
    exact ((loadRegs_neverRefused s _ _).andThen fun u => complete_neverRefused u .advance).unguarded
  case ldVxK x => exact (execLdVxK_neverRefused s x).unguarded
  all_goals exact (neverRefused_next _).unguarded

/-- Settles O20: past the guard no handler is refused, and the guarded cases are those of R70. -/
theorem onlyAliasCasesAreRefused : Obligations.OnlyAliasCasesAreRefused := by
  unfold Obligations.OnlyAliasCasesAreRefused
  intro i s
  obtain ⟨o, ho, hexec⟩ := exec_eq_unlessAliasRefused i s
  rw [hexec, unlessAliasRefused_refused_iff ho, Instr.isVfAlias_iff]

end Sys2Proof.Machine

namespace Sys2Proof.Machine

/-! ### Flags and results of the ALU, as numbers (R69) -/

section
variable (a b : Byte)

theorem flagByte_decide_toNat (p : Prop) [Decidable p] : (flagByte (decide p)).toNat = if p then 1 else 0 := by
  by_cases h : p <;> simp [h]

theorem carryFlag_toNat : (carryFlag a b).toNat = if a.toNat + b.toNat > 255 then 1 else 0 :=
  flagByte_decide_toNat _

theorem greaterFlag_toNat : (greaterFlag a b).toNat = if a.toNat > b.toNat then 1 else 0 :=
  flagByte_decide_toNat _

theorem byte_sub_toNat : (a - b).toNat = (a.toNat + 256 - b.toNat) % 256 := by
  rw [BitVec.toNat_sub]
  omega

theorem lowBitFlag_toNat : (lowBitFlag b).toNat = b.toNat % 2 := by
  simp [lowBitFlag, BitVec.toNat_and, Nat.and_one_is_mod]

theorem highBitFlag_toNat : (highBitFlag b).toNat = b.toNat / 128 := by
  simp [highBitFlag, Nat.shiftRight_eq_div_pow]

theorem byte_shiftRight_one_toNat : (b >>> 1).toNat = b.toNat / 2 := by
  simp [Nat.shiftRight_eq_div_pow]

theorem byte_shiftLeft_one_toNat : (b <<< 1).toNat = (2 * b.toNat) % 256 := by
  simp [Nat.shiftLeft_eq, Nat.mul_comm]

end

/-! ### Register writes of a cycle

An ALU handler writes one or two registers and advances. The two shapes are stated once, for any values. -/

section
variable {s u : State} {written : List RegIx}

theorem SameRegsBut.setV (h : SameRegsBut written s u) {x : RegIx} (hx : x ∈ written) (b : Byte) :
    SameRegsBut written s (u.setV x b) := fun r hr =>
  (u.readV_setV_ne (ne_of_mem_of_not_mem hx hr) b).trans (h r hr)

theorem State.endCycle_readV (act : PcAction) (log : Option Word) (r : RegIx) :
    (s.endCycle act log).readV r = s.readV r :=
  State.readV_of_v (by rw [State.endCycle_eq]) r

variable (s)

/-- The cycle of a handler that wrote the listed registers to make the registers `v`. -/
theorem complete_writesRegs {v : Vector Byte 16} (h : SameRegsBut written s { s with v := v }) :
    ∃ t, complete .advance { s with v := v } = .next t ∧ (∀ r, t.readV r = State.readV { s with v := v } r) ∧
      t.pc = s.pc + 2 ∧ RegisterCycle s t ∧ SameRegsBut written s t :=
  ⟨_, complete_eq _ _, fun r => State.endCycle_readV _ _ r, State.endCycle_pc _ _ _,
    registerCycle_endCycle s v .advance, fun r hr => (State.endCycle_readV _ _ r).trans (h r hr)⟩

theorem complete_setV (x : RegIx) (b : Byte) :
    ∃ t, complete .advance (s.setV x b) = .next t ∧ t.readV x = b ∧
      t.pc = s.pc + 2 ∧ RegisterCycle s t ∧ SameRegsBut [x] s t := by
  have hsame : SameRegsBut [x] s (s.setV x b) := SameRegsBut.setV (fun _ _ => rfl) (by simp) b
  obtain ⟨t, hrun, hread, hframe⟩ := complete_writesRegs s hsame
  exact ⟨t, hrun, (hread x).trans (s.readV_setV_self x b), hframe⟩

/-- Two writes in order: where both name one register, the second stays. -/
theorem complete_setV_setV (p q : RegIx) (a b : Byte) (hp : p ∈ written := by simp) (hq : q ∈ written := by simp) :
    ∃ t, complete .advance ((s.setV p a).setV q b) = .next t ∧ t.readV q = b ∧ (q ≠ p → t.readV p = a) ∧
      t.pc = s.pc + 2 ∧ RegisterCycle s t ∧ SameRegsBut written s t := by
  have hsame : SameRegsBut written s ((s.setV p a).setV q b) :=
    (SameRegsBut.setV (fun _ _ => rfl) hp a).setV hq b
  obtain ⟨t, hrun, hread, hframe⟩ := complete_writesRegs s hsame
  refine ⟨t, hrun, (hread q).trans (State.readV_setV_self _ q b), fun hne => ?_, hframe⟩
  calc t.readV p
      _ = ((s.setV p a).setV q b).readV p := hread p
      _ = (s.setV p a).readV p := State.readV_setV_ne _ hne b
      _ = a := s.readV_setV_self p a

/-- The three bitwise operations: `op` on the registers is `bit` on each bit. -/
theorem complete_bitwise {op : Byte → Byte → Byte} {bit : Bool → Bool → Bool}
    (hop : ∀ a b k, (op a b).getLsbD k = bit (a.getLsbD k) (b.getLsbD k)) (x y : RegIx) :
    ∃ t, complete .advance (s.setV x (op (s.readV x) (s.readV y))) = .next t ∧
      (∀ k, (t.readV x).getLsbD k = bit ((s.readV x).getLsbD k) ((s.readV y).getLsbD k)) ∧
      t.pc = s.pc + 2 ∧ RegisterCycle s t ∧ SameRegsBut [x] s t := by
  obtain ⟨t, hrun, hx, hframe⟩ := complete_setV s x (op (s.readV x) (s.readV y))
  exact ⟨t, hrun, fun k => by rw [hx, hop], hframe⟩

end

/-- Settles O36. -/
theorem loadsWriteTheDestination : Obligations.LoadsWriteTheDestination := by
  unfold Obligations.LoadsWriteTheDestination
  intro x y kk s
  exact ⟨decodeWord_encodeWord (i := .ldVxKk x kk) rfl, decodeWord_encodeWord (i := .ldVxVy x y) rfl,
    complete_setV s x kk, complete_setV s x (s.readV y)⟩

/-- Settles O37. -/
theorem addImmediateWrapsWithoutFlag : Obligations.AddImmediateWrapsWithoutFlag := by
  unfold Obligations.AddImmediateWrapsWithoutFlag
  intro x kk s
  obtain ⟨t, hrun, hx, hframe⟩ := complete_setV s x (s.readV x + kk)
  exact ⟨decodeWord_encodeWord (i := .addVxKk x kk) rfl, t, hrun, by rw [hx, BitVec.toNat_add], hframe⟩

/-- Settles O38. -/
theorem logicOperationsWriteNoFlag : Obligations.LogicOperationsWriteNoFlag := by
  unfold Obligations.LogicOperationsWriteNoFlag
  intro x y s
  exact ⟨decodeWord_encodeWord (i := .orVxVy x y) rfl, decodeWord_encodeWord (i := .andVxVy x y) rfl,
    decodeWord_encodeWord (i := .xorVxVy x y) rfl,
    complete_bitwise s (fun _ _ _ => BitVec.getLsbD_or) x y,
    complete_bitwise s (fun _ _ _ => BitVec.getLsbD_and) x y,
    complete_bitwise s (fun _ _ _ => BitVec.getLsbD_xor) x y⟩

/-- Settles O39: the flag is the second of the two writes, and both values are of the state before them. -/
theorem addRegistersSetsCarryLast : Obligations.AddRegistersSetsCarryLast := by
  unfold Obligations.AddRegistersSetsCarryLast
  intro x y s
  obtain ⟨t, hrun, hflag, hsum, hframe⟩ := complete_setV_setV s (written := [x, regF]) x regF
    (s.readV x + s.readV y) (carryFlag (s.readV x) (s.readV y))
  refine ⟨decodeWord_encodeWord (i := .addVxVy x y) rfl, t, hrun, fun hx => ?_, ?_, hframe⟩
  · rw [hsum hx.symm, BitVec.toNat_add]
  · rw [hflag, carryFlag_toNat]

/-! ### The flag before the result (R70)

SUB, SUBN, SHR and SHL write VF first and read their operands afterwards. One lemma for the subtractions and one for
the shifts cover the aliased-VF cases, where the operand is the flag just written, and the rest. -/

/-- The order of statements of R79 and R81: the flag, then the difference of the registers as the flag left them. -/
def State.subtract (s : State) (dst minuend subtrahend : RegIx) : State :=
  let s1 := s.setFlag (greaterFlag (s.readV minuend) (s.readV subtrahend))
  s1.setV dst (s1.readV minuend - s1.readV subtrahend)

section
variable {s : State} {x y : RegIx}

theorem exec_subVxVy (h : aliasXY x y = false ∨ s.params.vfAlias = .sequential) :
    exec (.subVxVy x y) s = complete .advance (s.subtract x x y) :=
  unlessAliasRefused_runs h

theorem exec_subnVxVy (h : aliasXY x y = false ∨ s.params.vfAlias = .sequential) :
    exec (.subnVxVy x y) s = complete .advance (s.subtract x y x) :=
  unlessAliasRefused_runs h

theorem aliasXY_eq_false (hx : x ≠ regF) (hy : y ≠ regF) : aliasXY x y = false := by
  simp [aliasXY, hx, hy]

variable (s)

/-- An operand that names VF is the flag `f`, not the register as it was. -/
theorem complete_subtract (dst m u : RegIx) {written : List RegIx} (hd : dst ∈ written := by simp)
    (hF : regF ∈ written := by simp) :
    ∃ t f, complete .advance (s.subtract dst m u) = .next t ∧
      f = (if (s.readV m).toNat > (s.readV u).toNat then 1 else 0) ∧
      (dst ≠ regF → (t.readV regF).toNat = f) ∧
      (t.readV dst).toNat = ((if regF = m then f else (s.readV m).toNat) + 256 -
        (if regF = u then f else (s.readV u).toNat)) % 256 ∧
      t.pc = s.pc + 2 ∧ RegisterCycle s t ∧ SameRegsBut written s t := by
  obtain ⟨t, hrun, hdst, hflag, hframe⟩ :=
    complete_setV_setV s regF dst (greaterFlag (s.readV m) (s.readV u)) _ hF hd
  refine ⟨t, _, hrun, greaterFlag_toNat _ _, fun h => congrArg _ (hflag h), ?_, hframe⟩
  rw [hdst, byte_sub_toNat, State.readV_setFlag, State.readV_setFlag, apply_ite BitVec.toNat, apply_ite BitVec.toNat]

/-- Away from the aliased-VF cases the operands are the registers as they were. -/
theorem complete_subtract_of_ne {dst m u : RegIx} (hd : dst ≠ regF) (hm : m ≠ regF) (hu : u ≠ regF) :
    ∃ t, complete .advance (s.subtract dst m u) = .next t ∧
      (t.readV dst).toNat = ((s.readV m).toNat + 256 - (s.readV u).toNat) % 256 ∧
      (t.readV regF).toNat = (if (s.readV m).toNat > (s.readV u).toNat then 1 else 0) ∧
      t.pc = s.pc + 2 ∧ RegisterCycle s t ∧ SameRegsBut [dst, regF] s t := by
  obtain ⟨t, f, hrun, hf, hflag, hdst, hframe⟩ :=
    complete_subtract s dst m u (written := [dst, regF])
  rw [if_neg hm.symm, if_neg hu.symm] at hdst
  exact ⟨t, hrun, hdst, (hflag hd).trans hf, hframe⟩

/-- With both operands VF the flag is subtracted from itself. -/
theorem complete_subtract_flag_flag : ∃ t, complete .advance (s.subtract regF regF regF) = .next t ∧
    t.readV regF = 0 ∧ t.pc = s.pc + 2 ∧ RegisterCycle s t ∧ SameRegsBut [regF] s t := by
  obtain ⟨t, f, hrun, -, -, hdst, hframe⟩ :=
    complete_subtract s regF regF regF (written := [regF])
  rw [if_pos rfl, Nat.add_sub_cancel_left] at hdst
  exact ⟨t, hrun, BitVec.eq_of_toNat_eq hdst, hframe⟩

end

/-- Settles O40. -/
theorem subtractionsSetStrictFlag : Obligations.SubtractionsSetStrictFlag := by
  unfold Obligations.SubtractionsSetStrictFlag
  intro x y s hx hy
  have halias := aliasXY_eq_false hx hy
  rw [exec_subVxVy (.inl halias), exec_subnVxVy (.inl halias)]
  exact ⟨complete_subtract_of_ne s hx hx hy, complete_subtract_of_ne s hx hy hx⟩

/-- Settles O41. -/
theorem subtractAliasCasesRunInOrder : Obligations.SubtractAliasCasesRunInOrder := by
  unfold Obligations.SubtractAliasCasesRunInOrder
  intro r s hseq hr
  simp only [exec_subVxVy (.inr hseq)]
  refine ⟨?_, ?_, complete_subtract_flag_flag s⟩
  · obtain ⟨t, f, hrun, hf, -, hdst, hframe⟩ := complete_subtract s regF regF r (written := [regF])
    rw [if_pos rfl, if_neg hr.symm, hf] at hdst
    exact ⟨t, hrun, hdst, hframe⟩
  · obtain ⟨t, f, hrun, hf, hflag, hdst, hframe⟩ :=
      complete_subtract s r r regF (written := [r, regF])
    rw [if_pos rfl, if_neg hr.symm] at hdst
    exact ⟨t, f, hrun, hf, hflag hr, hdst, hframe⟩

/-- Settles O42. -/
theorem reverseSubtractAliasCasesRunInOrder : Obligations.ReverseSubtractAliasCasesRunInOrder := by
  unfold Obligations.ReverseSubtractAliasCasesRunInOrder
  intro r s hseq hr
  simp only [exec_subnVxVy (.inr hseq)]
  refine ⟨?_, ?_, complete_subtract_flag_flag s⟩
  · obtain ⟨t, f, hrun, hf, -, hdst, hframe⟩ := complete_subtract s regF r regF (written := [regF])
    rw [if_pos rfl, if_neg hr.symm] at hdst
    exact ⟨t, f, hrun, hf, hdst, hframe⟩
  · obtain ⟨t, f, hrun, hf, hflag, hdst, hframe⟩ :=
      complete_subtract s r regF r (written := [r, regF])
    rw [if_pos rfl, if_neg hr.symm] at hdst
    exact ⟨t, f, hrun, hf, hflag hr, hdst, hframe⟩

/-- The order of statements of R80 and R82: the bit shifted out, then the shift of the register as the flag left it. -/
def State.shiftBy (s : State) (x : RegIx) (flag : Byte → Byte) (shift : Byte → Byte) : State :=
  let s1 := s.setFlag (flag (s.readV x))
  s1.setV x (shift (s1.readV x))

section
variable {s : State} {x : RegIx} (y : RegIx)

theorem exec_shrVxVy (h : aliasX x = false ∨ s.params.vfAlias = .sequential) :
    exec (.shrVxVy x y) s = complete .advance (s.shiftBy x lowBitFlag (· >>> 1)) :=
  unlessAliasRefused_runs h

theorem exec_shlVxVy (h : aliasX x = false ∨ s.params.vfAlias = .sequential) :
    exec (.shlVxVy x y) s = complete .advance (s.shiftBy x highBitFlag (· <<< 1)) :=
  unlessAliasRefused_runs h

variable (s) (flag shift : Byte → Byte)

/-- Away from the aliased-VF case the old value is shifted. -/
theorem complete_shiftBy_of_ne (hx : x ≠ regF) :
    ∃ t, complete .advance (s.shiftBy x flag shift) = .next t ∧ t.readV x = shift (s.readV x) ∧
      t.readV regF = flag (s.readV x) ∧ t.pc = s.pc + 2 ∧ RegisterCycle s t ∧ SameRegsBut [x, regF] s t := by
  obtain ⟨t, hrun, hval, hflag, hframe⟩ := complete_setV_setV s (written := [x, regF]) regF x (flag (s.readV x)) _
  refine ⟨t, hrun, hval.trans ?_, hflag hx, hframe⟩
  rw [State.readV_setFlag, if_neg hx.symm]

/-- In the aliased-VF case the flag is shifted. -/
theorem complete_shiftBy_flag :
    ∃ t, complete .advance (s.shiftBy regF flag shift) = .next t ∧ t.readV regF = shift (flag (s.readV regF)) ∧
      t.pc = s.pc + 2 ∧ RegisterCycle s t ∧ SameRegsBut [regF] s t := by
  obtain ⟨t, hrun, hval, -, hframe⟩ := complete_setV_setV s (written := [regF]) regF regF (flag (s.readV regF)) _
  refine ⟨t, hrun, hval.trans ?_, hframe⟩
  rw [State.readV_setFlag, if_pos rfl]

end

/-- Settles O43. -/
theorem shiftsSetTheBitShiftedOut : Obligations.ShiftsSetTheBitShiftedOut := by
  unfold Obligations.ShiftsSetTheBitShiftedOut
  intro x y s hx
  have halias : aliasX x = false := beq_eq_false_iff_ne.mpr hx
  rw [exec_shrVxVy y (.inl halias), exec_shlVxVy y (.inl halias)]
  constructor
  · obtain ⟨t, hrun, hval, hflag, hframe⟩ := complete_shiftBy_of_ne s lowBitFlag (· >>> 1) hx
    exact ⟨t, hrun, by rw [hval, byte_shiftRight_one_toNat], by rw [hflag, lowBitFlag_toNat], hframe⟩
  · obtain ⟨t, hrun, hval, hflag, hframe⟩ := complete_shiftBy_of_ne s highBitFlag (· <<< 1) hx
    exact ⟨t, hrun, by rw [hval, byte_shiftLeft_one_toNat], by rw [hflag, highBitFlag_toNat], hframe⟩

/-- Settles O44: the flag is 0 or 1, so its shift to the right is 0 and its shift to the left is twice it. -/
theorem shiftAliasCasesRunInOrder : Obligations.ShiftAliasCasesRunInOrder := by
  unfold Obligations.ShiftAliasCasesRunInOrder
  intro y s hseq
  rw [exec_shrVxVy y (.inr hseq), exec_shlVxVy y (.inr hseq)]
  constructor
  · obtain ⟨t, hrun, hval, hframe⟩ := complete_shiftBy_flag s lowBitFlag (· >>> 1)
    refine ⟨t, hrun, hval.trans (BitVec.eq_of_toNat_eq ?_), hframe⟩
    rw [byte_shiftRight_one_toNat, lowBitFlag_toNat]
    exact Nat.div_eq_of_lt (Nat.mod_lt _ two_pos)
  · obtain ⟨t, hrun, hval, hframe⟩ := complete_shiftBy_flag s highBitFlag (· <<< 1)
    refine ⟨t, hrun, ?_, hframe⟩
    rw [hval, byte_shiftLeft_one_toNat, highBitFlag_toNat]
    omega

end Sys2Proof.Machine

namespace Sys2Proof.Machine

/-! ### The index register and memory (R84 to R90)

LD I, LD F and ADD I write I alone; LD B and LD [I] write memory alone. One frame serves both, and the addresses of
an access count up from I. -/

section
variable (s : State)

/-- The cycle of a handler that wrote I and memory only. -/
theorem complete_indexMemory (w : Word) (m : Memory) :
    ∃ t, complete .advance { s with i := w, mem := m } = .next t ∧ t.i = w ∧ t.mem = m ∧ t.pc = s.pc + 2 ∧
      PlainCycle s t ∧ SameRegsBut [] s t ∧ SameStack s t ∧ SameWait s t ∧ SameScreen s t := by
  refine ⟨_, complete_eq _ _, ?_⟩
  have hrec := emitsRecord_endCycle { s with i := w, mem := m } .advance none
  rw [State.endCycle_eq] at hrec ⊢
  exact ⟨rfl, rfl, rfl,
    ⟨countedDown_countdown s.dt, countedDown_countdown s.st, hrec, ⟨rfl, rfl, rfl, rfl, rfl, rfl⟩⟩,
    fun _ _ => rfl, ⟨rfl, fun _ => rfl⟩, rfl, fun _ _ => rfl⟩

theorem complete_setI (w : Word) :
    ∃ t, complete .advance (s.setI w) = .next t ∧ t.i = w ∧ t.pc = s.pc + 2 ∧ PlainCycle s t ∧
      SameRegsBut [] s t ∧ SameStack s t ∧ SameWait s t ∧ SameScreen s t ∧ SameMemory s t := by
  obtain ⟨t, hrun, hi, hmem, hpc, hplain, hregs, hstack, hwait, hscreen⟩ := complete_indexMemory s w s.mem
  exact ⟨t, hrun, hi, hpc, hplain, hregs, hstack, hwait, hscreen, State.readMem_of_mem hmem⟩

theorem complete_stores (m : Memory) :
    ∃ t, complete .advance { s with mem := m } = .next t ∧
      (∀ a, t.readMem a = State.readMem { s with mem := m } a) ∧ t.pc = s.pc + 2 ∧ PlainCycle s t ∧
      SameRegsBut [] s t ∧ SameIndex s t ∧ SameStack s t ∧ SameWait s t ∧ SameScreen s t := by
  obtain ⟨t, hrun, hi, hmem, hpc, hplain, hregs, hframe⟩ := complete_indexMemory s s.i m
  exact ⟨t, hrun, State.readMem_of_mem hmem, hpc, hplain, hregs, hi, hframe⟩

end

section
variable {s : State}

@[simp] theorem State.writeMem_dataAddr (a : Nat) (b : Byte) (k : Nat) :
    (s.writeMem a b).dataAddr k = s.dataAddr k := rfl

@[simp] theorem State.dataAddr_inj {j k : Nat} : s.dataAddr j = s.dataAddr k ↔ j = k := Nat.add_left_cancel_iff

theorem State.dataAddr_of_sameIndex {t : State} (h : SameIndex s t) (k : Nat) : t.dataAddr k = s.dataAddr k :=
  congrArg (·.toNat + k) h

/-- An address of a block is in memory if the last one is. -/
theorem State.dataAddr_lt {k n b : Nat} (hk : k ≤ n) (h : s.dataAddr n < b) : s.dataAddr k < b :=
  Nat.lt_of_le_of_lt (Nat.add_le_add_left hk _) h

end

/-! ### LD I and LD F, ADD I (R84 to R86) -/

/-- Settles O46: 255 * 5 is below 65536, so the product does not wrap. -/
theorem indexLoadsSetIndex : Obligations.IndexLoadsSetIndex := by
  unfold Obligations.IndexLoadsSetIndex
  intro nnn x s
  refine ⟨decodeWord_encodeWord (i := .ldI nnn) rfl, decodeWord_encodeWord (i := .ldFVx x) rfl, ?_, ?_⟩
  · obtain ⟨t, hrun, hi, hframe⟩ := complete_setI s (absTarget nnn)
    exact ⟨t, hrun, hi ▸ absTarget_toNat nnn, hframe⟩
  · obtain ⟨t, hrun, hi, hframe⟩ := complete_setI s ((s.readV x).zeroExtend 16 * 5)
    exact ⟨t, hrun, by rw [hi]; bv_omega, hframe⟩

section
variable {x : RegIx} {s : State}

theorem exec_addIVx (h : s.i.toNat + (s.readV x).toNat ≤ 0xFFFF ∨ s.params.iOverflow = .wrap) :
    exec (.addIVx x) s = complete .advance (s.setI (BitVec.ofNat 16 (s.i.toNat + (s.readV x).toNat))) := by
  refine if_neg ?_
  rintro ⟨hsum, hfault⟩
  rcases h with hle | hwrap
  · omega
  · rw [hwrap] at hfault; cases hfault

theorem exec_addIVx_fault (h : 0xFFFF < s.i.toNat + (s.readV x).toNat) (hf : s.params.iOverflow = .fault) :
    exec (.addIVx x) s = .fault (.indexOverflow s.pc (s.i.toNat + (s.readV x).toNat)) :=
  if_pos ⟨h, hf⟩

end

/-- Settles O47: I takes the low 16 bits of the sum, which are the whole sum unless it passes 0xFFFF. -/
theorem addToIndexFollowsOverflowParameter : Obligations.AddToIndexFollowsOverflowParameter := by
  unfold Obligations.AddToIndexFollowsOverflowParameter
  intro x s
  refine ⟨fun h => ?_, exec_addIVx_fault⟩
  obtain ⟨t, hrun, hi, hframe⟩ := complete_setI s (BitVec.ofNat 16 (s.i.toNat + (s.readV x).toNat))
  exact ⟨t, (exec_addIVx h).trans hrun, by rw [hi, BitVec.toNat_ofNat], hframe⟩

/-! ### Decimal digits (R87) -/

section
variable (b : Byte)

theorem bcdHundreds_toNat : (bcdHundreds b).toNat = b.toNat / 100 := BitVec.toNat_udiv

theorem bcdTens_toNat : (bcdTens b).toNat = b.toNat / 10 % 10 := by
  rw [bcdTens, BitVec.toNat_umod, BitVec.toNat_udiv]
  rfl

theorem bcdOnes_toNat : (bcdOnes b).toNat = b.toNat % 10 := BitVec.toNat_umod

end

/-- The three stores of LD B. -/
def State.storeDigits (s : State) (x : RegIx) : State :=
  ((s.writeMem (s.dataAddr 0) (bcdHundreds (s.readV x))).writeMem (s.dataAddr 1) (bcdTens (s.readV x))).writeMem
    (s.dataAddr 2) (bcdOnes (s.readV x))

section
variable (x : RegIx) {s : State}

theorem exec_ldBVx (h : s.dataAddr 2 < Config.memSize) :
    exec (.ldBVx x) s = complete .advance (s.storeDigits x) := by
  have h0 : s.dataAddr 0 < Config.memSize := State.dataAddr_lt (by omega) h
  have h1 : s.dataAddr 1 < Config.memSize := State.dataAddr_lt (by omega) h
  rw [exec, execLdBVx, storeByte_next h0, andThen_next, State.writeMem_dataAddr, storeByte_next h1, andThen_next,
    State.writeMem_dataAddr, State.writeMem_dataAddr, storeByte_next h, andThen_next]
  rfl

theorem State.readMem_storeDigits (hw : s.mem.wf = true) (h : s.dataAddr 2 < Config.memSize) (a : Nat) :
    (s.storeDigits x).readMem a =
      if s.dataAddr 2 = a then bcdOnes (s.readV x)
      else if s.dataAddr 1 = a then bcdTens (s.readV x)
      else if s.dataAddr 0 = a then bcdHundreds (s.readV x)
      else s.readMem a := by
  have hw0 := Memory.wf_write hw (State.dataAddr_lt (k := 0) (by omega) h) (bcdHundreds (s.readV x))
  have hw1 := Memory.wf_write hw0 (State.dataAddr_lt (k := 1) (by omega) h) (bcdTens (s.readV x))
  rw [State.storeDigits, State.readMem_writeMem hw1, State.readMem_writeMem hw0, State.readMem_writeMem hw]

end

/-- Settles O48: the three addresses differ, so no digit overwrites another. -/
theorem decimalDigitsAreStored : Obligations.DecimalDigitsAreStored := by
  unfold Obligations.DecimalDigitsAreStored
  intro x s hw h
  obtain ⟨t, hrun, hread, hframe⟩ := complete_stores s (s.storeDigits x).mem
  replace hread a : t.readMem a = _ := (hread a).trans (State.readMem_storeDigits x hw h a)
  refine ⟨t, (exec_ldBVx x h).trans hrun, ?_, ?_, ?_, fun a ha => ?_, hframe⟩
  · simp [hread, bcdHundreds_toNat]
  · simp [hread, bcdTens_toNat]
  · simp [hread, bcdOnes_toNat]
  · simp only [List.mem_cons, List.not_mem_nil, or_false, not_or] at ha
    obtain ⟨h0, h1, h2⟩ := ha
    rw [hread, if_neg (Ne.symm h2), if_neg (Ne.symm h1), if_neg (Ne.symm h0)]

/-! ### Block transfers (R88 to R90) -/

section
variable (x : RegIx) (s : State)

theorem exec_ldMemVx : exec (.ldMemVx x) s = andThen (storeRegs (x.toNat + 1) 0 s) (complete .advance) := rfl

theorem exec_ldVxMem : exec (.ldVxMem x) s = andThen (loadRegs (x.toNat + 1) 0 s) (complete .advance) := rfl

end

/-- Settles O49: the block is the addresses from I to I + x, and the byte at `a` is the register `a - I`. -/
theorem blockStoreWritesRegisters : Obligations.BlockStoreWritesRegisters := by
  unfold Obligations.BlockStoreWritesRegisters
  intro x s hw hx
  obtain ⟨u, hstore, hbytes⟩ := storeRegs_ends (count := x.toNat + 1) (i := 0) hw
    fun k hk => State.dataAddr_lt (by omega) hx
  obtain ⟨⟨m, rfl⟩, -⟩ := storeRegs_next hstore
  obtain ⟨t, hrun, hread, hframe⟩ := complete_stores s m
  refine ⟨t, ?_, fun r hr => ?_, fun a ha => ?_, hframe⟩
  · rw [exec_ldMemVx, hstore, andThen_next, hrun]
  · rw [hread, hbytes, if_pos (by simp only [State.dataAddr]; omega)]
    simp [State.dataAddr]
  · rw [hread, hbytes, if_neg]
    rintro ⟨hlo, hhi⟩
    simp only [State.dataAddr] at hlo hhi
    exact ha (List.mem_map.mpr ⟨a - s.i.toNat, List.mem_range.mpr (by omega), Nat.add_sub_cancel' hlo⟩)

/-- Settles O50: the block has at most 16 registers, so no register is loaded twice. -/
theorem blockLoadReadsRegisters : Obligations.BlockLoadReadsRegisters := by
  unfold Obligations.BlockLoadReadsRegisters
  intro x s hx
  obtain ⟨u, hload, hregs⟩ := loadRegs_ends (count := x.toNat + 1) (i := 0) (s := s) (by omega)
    fun k hk => State.dataAddr_lt (by omega) hx
  obtain ⟨⟨v, rfl⟩, -⟩ := loadRegs_next hload
  refine ⟨State.endCycle { s with v := v } .advance none, ?_, fun r hr => ?_, fun r hr => ?_,
    State.endCycle_pc _ _ _, registerCycle_endCycle s v .advance⟩
  · rw [exec_ldVxMem, hload, andThen_next, complete_eq]
  · rw [State.endCycle_readV, hregs, if_pos (by omega)]
  · rw [State.endCycle_readV, hregs, if_neg (by omega)]

/-- Settles O51: the store keeps I, so the load reads back from the addresses just written. -/
theorem blockStoreThenLoadRestoresRegisters : Obligations.BlockStoreThenLoadRestoresRegisters := by
  unfold Obligations.BlockStoreThenLoadRestoresRegisters
  intro x s hw hx
  obtain ⟨t, hstore, hbytes, -, -, -, hregs, hindex, -⟩ := blockStoreWritesRegisters x s hw hx
  have haddr := State.dataAddr_of_sameIndex hindex
  obtain ⟨u, hload, hblock, hrest, -, hcycle⟩ := blockLoadReadsRegisters x t (by rw [haddr]; exact hx)
  refine ⟨t, u, hstore, hload, fun r hr => ?_, hcycle.index.trans hindex⟩
  rcases Nat.lt_or_ge x.toNat r.toNat with hlt | hle
  · exact (hrest r hlt).trans (hregs r hr)
  · rw [hblock r hle, haddr, hbytes r hle]

/-! ### The first address out of memory (R105) -/

section
variable {s : State}

/-- The first address out of memory is I, or the one whose predecessor is the last in memory. -/
theorem State.dataAddr_first {k : Nat} (h : Config.memSize ≤ s.dataAddr k)
    (hk : ∀ j < k, s.dataAddr j < Config.memSize) : s.dataAddr k = max s.i.toNat 4096 := by
  simp only [State.dataAddr, Config.memSize] at h hk ⊢
  cases k with
  | zero => omega
  | succ k =>
    have := hk k (by omega)
    omega

theorem exec_ldBVx_fault (x : RegIx) (h2 : Config.memSize ≤ s.dataAddr 2) :
    exec (.ldBVx x) s = .fault (.memoryOutOfRange s.pc (max s.i.toNat 4096)) := by
  rw [exec, execLdBVx]
  by_cases h0 : s.dataAddr 0 < Config.memSize
  · rw [storeByte_next h0, andThen_next, State.writeMem_dataAddr]
    by_cases h1 : s.dataAddr 1 < Config.memSize
    · rw [storeByte_next h1, andThen_next, State.writeMem_dataAddr, State.writeMem_dataAddr, storeByte_fault h2,
        andThen_fault, State.dataAddr_first h2 fun j hj => State.dataAddr_lt (by omega) h1]
      rfl
    · have h1 := Nat.le_of_not_lt h1
      rw [storeByte_fault h1, andThen_fault,
        State.dataAddr_first h1 fun j hj => State.dataAddr_lt (by omega) h0]
      rfl
  · have h0 := Nat.le_of_not_lt h0
    rw [storeByte_fault h0, andThen_fault, State.dataAddr_first h0 nofun]

theorem exec_drw {x y : RegIx} (n : BitVec 4) (h : s.params.vfAlias = .sequential ∨ (x ≠ regF ∧ y ≠ regF)) :
    exec (.drw x y n) s =
      andThen (drawRows ((s.setFlag 0).readV x) ((s.setFlag 0).readV y) n.toNat 0 (s.setFlag 0))
        (complete .advance) :=
  unlessAliasRefused_runs (h.symm.imp_left fun ⟨hx, hy⟩ => aliasXY_eq_false hx hy)

end

/-- Settles O52: LD B stores in ascending order, and a block transfer or a draw of `count` addresses from I reports
the first one out of memory if the last one is. -/
theorem firstAddressOutOfMemoryIsReported : Obligations.FirstAddressOutOfMemoryIsReported := by
  unfold Obligations.FirstAddressOutOfMemoryIsReported
  intro x y n s
  refine ⟨exec_ldBVx_fault x, fun h => ?_, fun hn h hrun => ?_⟩
  · have hlast : Config.memSize ≤ s.dataAddr (0 + (x.toNat + 1 - 1)) := (Nat.zero_add x.toNat).symm ▸ h
    rw [exec_ldMemVx, exec_ldVxMem, storeRegs_fault (Nat.succ_pos _) hlast, loadRegs_fault (Nat.succ_pos _) hlast]
    exact ⟨rfl, rfl⟩
  · have hpos : 0 < n.toNat := by bv_omega
    have hlast : Config.memSize ≤ (s.setFlag 0).dataAddr (0 + (n.toNat - 1)) :=
      (Nat.zero_add (n.toNat - 1)).symm ▸ h
    rw [exec_drw n hrun, drawRows_fault _ _ hpos hlast]
    rfl

end Sys2Proof.Machine

namespace Sys2Proof.Machine

/-! ### The framebuffer (R91 to R93)

CLS and DRW write the framebuffer and, of the registers, at most VF. What a draw does is said once, in `DrawCycle`:
the pixels and VF after it, by the sprite bit that falls on each pixel. -/

section
variable {s u : State} {written : List RegIx}

/-- The cycle of a handler that wrote the framebuffer and the listed registers only. -/
theorem complete_screen (hu : ∃ v fb, u = { s with v := v, fb := fb }) (hregs : SameRegsBut written s u) :
    ∃ t, complete .advance u = .next t ∧ (∀ row col, t.pixel row col = u.pixel row col) ∧
      (∀ r, t.readV r = u.readV r) ∧ t.pc = s.pc + 2 ∧ PlainCycle s t ∧ SameRegsBut written s t ∧
      SameIndex s t ∧ SameStack s t ∧ SameWait s t ∧ SameMemory s t := by
  have hread := State.endCycle_readV (s := u) .advance none
  refine ⟨_, complete_eq _ _, fun row col => State.pixel_of_fb (by rw [State.endCycle_eq]) row col, hread, ?_⟩
  replace hregs r (hr : r ∉ written) := (hread r).trans (hregs r hr)
  have hrec := emitsRecord_endCycle u .advance none
  obtain ⟨v, fb, rfl⟩ := hu
  rw [State.endCycle_eq] at hrec hregs ⊢
  exact ⟨rfl,
    ⟨countedDown_countdown s.dt, countedDown_countdown s.st, hrec, ⟨rfl, rfl, rfl, rfl, rfl, rfl⟩⟩,
    hregs, rfl, ⟨rfl, fun _ => rfl⟩, rfl, fun _ => rfl⟩

end

/-! ### CLS (R91) -/

section
variable {s : State}

theorem exec_cls_clear (h : s.params.cls = .clear) : exec .cls s = complete .advance s.clearFb := by
  rw [exec, execCls, h]

theorem exec_cls_noop (h : s.params.cls = .noop) : exec .cls s = complete .advance s := by
  rw [exec, execCls, h]

end

/-- Settles O53. -/
theorem clearScreenFollowsParameter : Obligations.ClearScreenFollowsParameter := by
  unfold Obligations.ClearScreenFollowsParameter
  intro s
  cases hmode : s.params.cls with
  | clear =>
    obtain ⟨t, hrun, hpixel, -, hframe⟩ := complete_screen (s := s) (u := s.clearFb) (written := [])
      ⟨_, _, rfl⟩ fun _ _ => rfl
    exact ⟨t, (exec_cls_clear hmode).trans hrun,
      fun _ row col => (hpixel row col).trans (s.pixel_clearFb row col), nofun, hframe⟩
  | noop =>
    obtain ⟨t, hrun, hpixel, -, hframe⟩ := complete_screen (s := s) (u := s) (written := [])
      ⟨_, _, rfl⟩ fun _ _ => rfl
    exact ⟨t, (exec_cls_noop hmode).trans hrun, nofun, fun _ => hpixel, hframe⟩

/-! ### The sprite on the screen (R92, R93) -/

section
variable {X Y : Byte} {r r' j j' : Nat} {row : Fin 32} {col : Fin 64}

theorem fallsOn_iff : FallsOn X Y r j row col ↔ spriteRow Y r = row ∧ spriteCol X j = col := by
  simp only [FallsOn, Fin.ext_iff, spriteRow_val, spriteCol_val, eq_comm (a := row.val), eq_comm (a := col.val)]

/-- "one draw touches each pixel at most once" (R93). -/
theorem FallsOn.unique (h : FallsOn X Y r j row col) (h' : FallsOn X Y r' j' row col) (hr : r < 32) (hr' : r' < 32)
    (hj : j < 8) (hj' : j' < 8) : r = r' ∧ j = j' := by
  rw [fallsOn_iff] at h h'
  exact ⟨spriteRow_inj hr hr' (h.1.trans h'.1.symm), spriteCol_inj hj hj' (h.2.trans h'.2.symm)⟩

end

/-- Whether Dxyn has a sprite bit 1 for a pixel (R93). -/
def State.spriteAt (s : State) (x y : RegIx) (n : BitVec 4) (row : Fin 32) (col : Fin 64) : Bool :=
  spriteOn s (s.coordinate x) (s.coordinate y) n.toNat 0 row col

section
variable {s : State} {x y : RegIx} {n : BitVec 4} {row : Fin 32} {col : Fin 64}

theorem State.spriteAt_iff : s.spriteAt x y n row col = true ↔
    ∃ r j, r < n.toNat ∧ j < 8 ∧ FallsOn (s.coordinate x) (s.coordinate y) r j row col ∧
      (s.readMem (s.dataAddr r)).getLsbD (7 - j) = true := by
  simp only [State.spriteAt, spriteOn, bitsOn, spriteBit, fallsOn_iff, List.any_eq_true, Bool.and_eq_true,
    decide_eq_true_eq, List.mem_range'_1, List.mem_range]
  constructor
  · rintro ⟨r, ⟨-, hr⟩, hrow, j, hj, hcol, hbit⟩
    exact ⟨r, j, by omega, hj, ⟨hrow, hcol⟩, hbit⟩
  · rintro ⟨r, j, hr, hj, ⟨hrow, hcol⟩, hbit⟩
    exact ⟨r, by omega, hrow, j, hj, hcol, hbit⟩

/-- A pixel under the sprite has the one bit that falls on it. -/
theorem State.spriteAt_of_fallsOn {r j : Nat} (hr : r < n.toNat) (hj : j < 8)
    (h : FallsOn (s.coordinate x) (s.coordinate y) r j row col) :
    s.spriteAt x y n row col = (s.readMem (s.dataAddr r)).getLsbD (7 - j) := by
  rw [Bool.eq_iff_iff, State.spriteAt_iff]
  constructor
  · rintro ⟨r', j', hr', hj', h', hbit⟩
    obtain ⟨rfl, rfl⟩ := h.unique h' (by omega) (by omega) hj hj'
    exact hbit
  · exact fun hbit => ⟨r, j, hr, hj, h, hbit⟩

/-- A pixel beside the sprite has none. -/
theorem State.spriteAt_of_not_fallsOn
    (h : ∀ r j, r < n.toNat → j < 8 → ¬ FallsOn (s.coordinate x) (s.coordinate y) r j row col) :
    s.spriteAt x y n row col = false := by
  rw [Bool.eq_false_iff, ne_eq, State.spriteAt_iff]
  rintro ⟨r, j, hr, hj, hfalls, -⟩
  exact h r j hr hj hfalls

/-- The collision detector of R93 ranges over the sprite bits, so equally over the pixels they fall on. -/
theorem spriteHits_eq : spriteHits s (s.coordinate x) (s.coordinate y) n.toNat 0 =
    decide (∃ row col, s.pixel row col = true ∧ s.spriteAt x y n row col = true) := by
  rw [Bool.eq_iff_iff, decide_eq_true_eq]
  simp only [State.spriteAt_iff, spriteHits, bitsHit, spriteBit, fallsOn_iff, List.any_eq_true, Bool.and_eq_true,
    List.mem_range'_1, List.mem_range]
  constructor
  · rintro ⟨r, ⟨-, hr⟩, j, hj, hbit, hlit⟩
    exact ⟨_, _, hlit, r, j, by omega, hj, ⟨rfl, rfl⟩, hbit⟩
  · rintro ⟨_, _, hlit, r, j, hr, hj, ⟨rfl, rfl⟩, hbit⟩
    exact ⟨r, by omega, j, hj, hbit, hlit⟩

end

/-! ### The clearing of VF (R92) -/

section
variable (s : State)

/-- VF is cleared before the coordinates are read (R92). -/
theorem State.readV_setFlag_zero (r : RegIx) : (s.setFlag 0).readV r = s.coordinate r := by
  simp only [State.readV_setFlag, State.coordinate, eq_comm (a := regF)]

@[simp] theorem State.setFlag_dataAddr (b : Byte) (k : Nat) : (s.setFlag b).dataAddr k = s.dataAddr k := rfl
@[simp] theorem State.setFlag_pixel (b : Byte) (row : Fin 32) (col : Fin 64) :
    (s.setFlag b).pixel row col = s.pixel row col := rfl
@[simp] theorem spriteOn_setFlag (b X Y : Byte) (count r : Nat) :
    spriteOn (s.setFlag b) X Y count r = spriteOn s X Y count r := rfl
@[simp] theorem spriteHits_setFlag (b X Y : Byte) (count r : Nat) :
    spriteHits (s.setFlag b) X Y count r = spriteHits s X Y count r := rfl

end

/-! ### DRW (R92, R93) -/

/-- What a completed draw makes of a state: the framebuffer and VF as R93 gives them, and the rest of the cycle. -/
structure DrawCycle (x y : RegIx) (n : BitVec 4) (s t : State) : Prop where
  pixel  : ∀ row col, t.pixel row col = (s.pixel row col ^^ s.spriteAt x y n row col)
  flag   : t.readV regF = flagByte (decide (∃ row col, s.pixel row col = true ∧ s.spriteAt x y n row col = true))
  pc     : t.pc = s.pc + 2
  plain  : PlainCycle s t
  regs   : SameRegsBut [regF] s t
  index  : SameIndex s t
  stack  : SameStack s t
  wait   : SameWait s t
  memory : SameMemory s t

section
variable {x y : RegIx} {n : BitVec 4} {s t : State}

theorem exec_drw_of_drawRuns (h : DrawRuns x y n s) : ∃ t, exec (.drw x y n) s = .next t ∧ DrawCycle x y n s t := by
  obtain ⟨hnotRefused, hinMemory⟩ := h
  obtain ⟨u, hrows, hpixel, hflag⟩ := drawRows_ends (s.coordinate x) (s.coordinate y) (s := s.setFlag 0)
    (count := n.toNat) (r := 0) (by omega) fun k hk => by simpa using hinMemory k hk
  have hframe := (DrawFrame.setFlag 0).trans (drawRows_next _ _ hrows).1
  obtain ⟨t, hrun, hpixel', hread, hpc, hplain, hregs, hindex, hstack, hwait, hmem⟩ :=
    complete_screen (written := [regF]) hframe.fields fun r hr => hframe.regs r (by simpa using hr)
  refine ⟨t, ?_, ⟨fun row col => ?_, ?_, hpc, hplain, hregs, hindex, hstack,
    hwait, hmem⟩⟩
  · rw [exec_drw n hnotRefused, s.readV_setFlag_zero, s.readV_setFlag_zero, hrows, andThen_next, hrun]
  · rw [hpixel', hpixel, State.setFlag_pixel, spriteOn_setFlag, State.spriteAt]
  · rw [hread, hflag, spriteHits_setFlag, spriteHits_eq, State.readV_setFlag, if_pos rfl]
    exact BitVec.zero_or

theorem drawRuns_of_exec (h : exec (.drw x y n) s = .next t) : DrawRuns x y n s := by
  obtain ⟨-, hguard⟩ | ⟨hrefused, -⟩ := unlessAliasRefused_cases (aliasXY x y) s _
  · obtain ⟨u, hrows, -⟩ := andThen_eq_next (unlessAliasRefused_eq_next h)
    refine ⟨hguard.symm.imp_right fun hne => ?_, fun r hr => ?_⟩
    · simpa [aliasXY] using hne
    · simpa using (drawRows_next _ _ hrows).2 r hr
  · exact absurd (hrefused.symm.trans h) nofun

/-- Every completed draw is such a cycle. -/
theorem drawCycle_of_exec (h : exec (.drw x y n) s = .next t) : DrawCycle x y n s t := by
  obtain ⟨t', h', hcycle⟩ := exec_drw_of_drawRuns (drawRuns_of_exec h)
  cases h.symm.trans h'
  exact hcycle

namespace DrawCycle
variable (h : DrawCycle x y n s t)
include h

/-- A draw changes no coordinate: of the registers it writes VF, which counts as 0. -/
theorem coordinate (r : RegIx) : t.coordinate r = s.coordinate r := by
  unfold State.coordinate
  split
  next => rfl
  next hr => exact h.regs r (by simpa using hr)

/-- A draw leaves its own sprite as it was. -/
theorem spriteAt (row : Fin 32) (col : Fin 64) : t.spriteAt x y n row col = s.spriteAt x y n row col := by
  simp only [State.spriteAt, spriteOn, h.coordinate, State.dataAddr_of_sameIndex h.index, h.memory _]

theorem flag_of_hit {row : Fin 32} {col : Fin 64} (hlit : s.pixel row col = true)
    (hbit : s.spriteAt x y n row col = true) : t.readV regF = 1 := by
  rw [h.flag, decide_eq_true ⟨row, col, hlit, hbit⟩, flagByte_true]

theorem flag_of_no_hit (hno : ∀ row col, s.pixel row col = true → s.spriteAt x y n row col = false) :
    t.readV regF = 0 := by
  rw [h.flag, decide_eq_false, flagByte_false]
  rintro ⟨row, col, hlit, hbit⟩
  exact absurd ((hno row col hlit).symm.trans hbit) nofun

/-- The sprite bit of a pixel is 1 exactly where the draw changed the pixel. -/
theorem spriteAt_eq_xor (row : Fin 32) (col : Fin 64) :
    s.spriteAt x y n row col = (s.pixel row col ^^ t.pixel row col) := by
  rw [h.pixel, ← Bool.xor_assoc, Bool.xor_self, Bool.false_xor]

end DrawCycle
end

/-- Settles O54: the bit on a pixel is the one that falls there, or none. -/
theorem drawXorsTheSprite : Obligations.DrawXorsTheSprite := by
  unfold Obligations.DrawXorsTheSprite
  intro x y n s hruns
  obtain ⟨t, hrun, hdraw⟩ := exec_drw_of_drawRuns hruns
  refine ⟨t, hrun, fun r j row col hr hj hfalls => ?_, fun row col hbeside => ?_, hdraw.pc, hdraw.plain, hdraw.regs,
    hdraw.index, hdraw.stack, hdraw.wait, hdraw.memory⟩
  · rw [hdraw.pixel, State.spriteAt_of_fallsOn hr hj hfalls]
  · rw [hdraw.pixel, State.spriteAt_of_not_fallsOn hbeside, Bool.xor_false]

/-- Settles O55: a lit pixel is turned off exactly where a sprite bit hits it. -/
theorem drawReportsCollision : Obligations.DrawReportsCollision := by
  unfold Obligations.DrawReportsCollision
  intro x y n s t h
  have hdraw := drawCycle_of_exec h
  refine ⟨?_, fun hstays => hdraw.flag_of_no_hit fun row col hlit => ?_⟩
  · rintro ⟨row, col, hlit, hoff⟩
    exact hdraw.flag_of_hit hlit (by rw [hdraw.spriteAt_eq_xor, hlit, hoff, Bool.xor_false])
  · rw [hdraw.spriteAt_eq_xor, hlit, hstays row col hlit, Bool.xor_self]

/-- Settles O56: both draws put the same bit on a pixel, so the second undoes the first, and a pixel the first lit is
hit by the second. -/
theorem drawingTwiceRestoresTheScreen : Obligations.DrawingTwiceRestoresTheScreen := by
  unfold Obligations.DrawingTwiceRestoresTheScreen
  intro x y n s t u h h'
  have hfirst := drawCycle_of_exec h
  have hsecond := drawCycle_of_exec h'
  refine ⟨fun row col => ?_, ?_⟩
  · rw [hsecond.pixel, hfirst.spriteAt, hfirst.pixel, Bool.xor_assoc, Bool.xor_self, Bool.xor_false]
  · rintro ⟨row, col, hdark, hlit⟩
    refine hsecond.flag_of_hit hlit ?_
    rw [hfirst.spriteAt, hfirst.spriteAt_eq_xor, hdark, hlit, Bool.false_xor]

end Sys2Proof.Machine

namespace Sys2Proof.Machine

/-! ### Keypad and timers (R95 to R100)

SKP and SKNP are skips on one switch of the keypad. LD Vx, K writes WAIT and at most Vx; LD DT and LD ST write one
timer. Each of these two frames is stated once. -/

section
variable (s : State)

/-- The cycle of a handler that wrote WAIT and the listed registers only. -/
theorem complete_keyWait {v : Vector Byte 16} {written : List RegIx} (w : WaitMode) (act : PcAction)
    (hregs : SameRegsBut written s { s with v := v }) :
    ∃ t, complete act { s with v := v, wait := w } = .next t ∧
      (∀ r, t.readV r = State.readV { s with v := v } r) ∧ t.wait = w ∧ t.pc = act.target s.pc ∧
      PlainCycle s t ∧ SameRegsBut written s t ∧ SameIndex s t ∧ SameStack s t ∧ SameScreen s t ∧ SameMemory s t := by
  refine ⟨_, complete_eq _ _, ?_⟩
  have hrec := emitsRecord_endCycle { s with v := v, wait := w } act none
  rw [State.endCycle_eq] at hrec ⊢
  exact ⟨fun _ => rfl, rfl, rfl,
    ⟨countedDown_countdown s.dt, countedDown_countdown s.st, hrec, ⟨rfl, rfl, rfl, rfl, rfl, rfl⟩⟩,
    hregs, rfl, ⟨rfl, fun _ => rfl⟩, fun _ _ => rfl, fun _ => rfl⟩

/-- The cycle of a handler that wrote the timers only: it counts down what the handler left in them. -/
theorem complete_timers (dt st : Byte) :
    ∃ t, complete .advance { s with dt := dt, st := st } = .next t ∧ CountedDown dt t.dt ∧ CountedDown st t.st ∧
      t.pc = s.pc + 2 ∧ EmitsRecord t none ∧ SameOutside s t ∧ SameRegsBut [] s t ∧ SameIndex s t ∧
      SameStack s t ∧ SameWait s t ∧ SameScreen s t ∧ SameMemory s t := by
  refine ⟨_, complete_eq _ _, ?_⟩
  have hrec := emitsRecord_endCycle { s with dt := dt, st := st } .advance none
  rw [State.endCycle_eq] at hrec ⊢
  exact ⟨countedDown_countdown dt, countedDown_countdown st, rfl, hrec, ⟨rfl, rfl, rfl, rfl, rfl, rfl⟩,
    fun _ _ => rfl, rfl, ⟨rfl, fun _ => rfl⟩, rfl, fun _ _ => rfl, fun _ => rfl⟩

end

/-! ### SKP and SKNP (R95, R96) -/

section
variable {s : State} {b : Byte}

theorem keyState_next {k : Fin 16} (h : b.toNat = k.val) : keyState s b = .next s.key[k] := by
  simp only [keyState, h, k.isLt, ↓reduceDIte, Fin.getElem_fin]

theorem keyState_fault (h : 15 < b.toNat) : keyState s b = .fault (.keyIndexOutOfRange s.pc b) :=
  dif_neg (by omega)

variable {x : RegIx}

theorem exec_skp {k : Fin 16} (h : (s.readV x).toNat = k.val) : exec (.skp x) s = skipIf s.key[k] s := by
  rw [exec, execSkp, keyState_next h, andThen_next]

theorem exec_sknp {k : Fin 16} (h : (s.readV x).toNat = k.val) : exec (.sknp x) s = skipIf (!s.key[k]) s := by
  rw [exec, execSknp, keyState_next h, andThen_next]

theorem exec_skp_fault (h : 15 < (s.readV x).toNat) :
    exec (.skp x) s = .fault (.keyIndexOutOfRange s.pc (s.readV x)) := by
  rw [exec, execSkp, keyState_fault h, andThen_fault]

theorem exec_sknp_fault (h : 15 < (s.readV x).toNat) :
    exec (.sknp x) s = .fault (.keyIndexOutOfRange s.pc (s.readV x)) := by
  rw [exec, execSknp, keyState_fault h, andThen_fault]

end

/-- Settles O57: below 16 each is a skip on the switch of that number. -/
theorem keySkipsTestTheKeyNumbered : Obligations.KeySkipsTestTheKeyNumbered := by
  unfold Obligations.KeySkipsTestTheKeyNumbered
  intro x s
  refine ⟨fun k hk => ⟨?_, ?_⟩, fun h => ⟨exec_skp_fault h, exec_sknp_fault h⟩⟩
  · rw [exec_skp hk]
    exact skipIf_movesPcOnly s id id
  · rw [exec_sknp hk]
    exact skipIf_movesPcOnly s (congrArg not) (congrArg not)

/-! ### LD Vx, K (R97) -/

section
variable {s : State} (x : RegIx)

theorem exec_ldVxK_idle (h : s.wait = .idle) :
    exec (.ldVxK x) s = complete .wait (s.setWait .waiting) := by
  rw [exec, execLdVxK, h]

theorem exec_ldVxK_no_key (h : s.wait = .waiting) (hk : ∀ k : Fin 16, s.key[k] = false) :
    exec (.ldVxK x) s = complete .wait (s.setWait .waiting) := by
  have hstays : s.setWait .waiting = s := by rw [State.setWait, ← h]
  rw [exec, execLdVxK, h, firstPressed_none.mpr hk, hstays]

theorem exec_ldVxK_key {k : Fin 16} (h : s.wait = .waiting) (hk : s.key[k] = true)
    (hlow : ∀ j : Fin 16, j < k → s.key[j] = false) :
    exec (.ldVxK x) s = complete .advance ((s.setV x (BitVec.ofNat 8 k.val)).setWait .idle) := by
  rw [exec, execLdVxK, h, firstPressed_some hk hlow]

end

/-- Settles O58: the first dispatch and a poll with no key end alike, Waiting at the same pc. -/
theorem keyWaitFollowsItsStateTable : Obligations.KeyWaitFollowsItsStateTable := by
  unfold Obligations.KeyWaitFollowsItsStateTable
  intro x s
  obtain ⟨u, hrun, -, hwaits⟩ := complete_keyWait s (written := []) .waiting .wait fun _ _ => rfl
  refine ⟨decodeWord_encodeWord (i := .ldVxK x) rfl,
    fun hi => ⟨u, (exec_ldVxK_idle x hi).trans hrun, hwaits⟩,
    fun hw hno => ⟨u, (exec_ldVxK_no_key x hw hno).trans hrun, hwaits⟩, fun k hw hk hlow => ?_⟩
  have hregs : SameRegsBut [x] s (s.setV x (BitVec.ofNat 8 k.val)) :=
    SameRegsBut.setV (fun _ _ => rfl) (by simp) _
  obtain ⟨t, hrun, hread, hframe⟩ := complete_keyWait s .idle .advance hregs
  refine ⟨t, (exec_ldVxK_key x hw hk hlow).trans hrun, ?_, hframe⟩
  calc (t.readV x).toNat
      _ = (BitVec.ofNat 8 k.val).toNat := congrArg BitVec.toNat ((hread x).trans (s.readV_setV_self x _))
      _ = k.val := (BitVec.toNat_ofNat _ _).trans (Nat.mod_eq_of_lt (by omega))

/-! ### The timers (R98 to R100) -/

/-- Settles O59: the handler reads DT, and the end of the cycle counts it down. -/
theorem delayTimerIsReadBeforeDecrement : Obligations.DelayTimerIsReadBeforeDecrement := by
  unfold Obligations.DelayTimerIsReadBeforeDecrement
  intro x s
  exact ⟨decodeWord_encodeWord (i := .ldVxDt x) rfl, complete_setV s x s.dt⟩

/-- Settles O60: the handler writes the timer before the end of the cycle counts both down. -/
theorem writtenTimersCountDownAtOnce : Obligations.WrittenTimersCountDownAtOnce := by
  unfold Obligations.WrittenTimersCountDownAtOnce
  intro x s
  refine ⟨complete_timers s (s.readV x) s.st, ?_⟩
  obtain ⟨t, hrun, hdt, hst, hframe⟩ := complete_timers s s.dt (s.readV x)
  exact ⟨t, hrun, hst, hdt, hframe⟩

end Sys2Proof.Machine

namespace Sys2Proof.Machine

/-! ### Faults (R101, R105)

What a fault of `exec` can be, said once for every instruction: the counterpart of `HandlerEffect` for the runs that
end in a fault. -/

/-- The fault of an access past memory by the instruction at `pc` (R35, R36). -/
def OutOfMemoryAt (pc : Word) (f : Fault) : Prop := ∃ a, Config.memSize ≤ a ∧ f = .memoryOutOfRange pc a

/-- How an instruction can fault: what its row of R101 asks of the state, and the fault it reports. -/
def FaultCause (i : Instr) (s : State) (f : Fault) : Prop :=
  match i with
  | .ret => s.sp = 0 ∧ f = .stackUnderflow s.pc
  | .call _ => s.sp = 15 ∧ f = .stackOverflow s.pc
  | .drw _ _ _ | .ldBVx _ | .ldMemVx _ | .ldVxMem _ => OutOfMemoryAt s.pc f
  | .skp x | .sknp x => 15 < (s.readV x).toNat ∧ f = .keyIndexOutOfRange s.pc (s.readV x)
  | .addIVx x => 0xFFFF < s.i.toNat + (s.readV x).toNat ∧ s.params.iOverflow = .fault ∧
      f = .indexOverflow s.pc (s.i.toNat + (s.readV x).toNat)
  | _ => False

section
variable {s : State} {f : Fault}

/-- A handler that ends its cycle after `o` faults in `o`. -/
theorem andThen_complete_eq_fault {o : Result State} {act : PcAction} (h : andThen o (complete act) = .fault f) :
    o = .fault f :=
  (andThen_eq_fault h).resolve_right fun ⟨_, _, h⟩ => complete_ne_fault h

theorem unlessAliasRefused_eq_fault {isAlias : Bool} {o : Result State}
    (h : unlessAliasRefused isAlias s o = .fault f) : o = .fault f := by
  obtain ⟨heq, -⟩ | ⟨heq, -⟩ := unlessAliasRefused_cases isAlias s o
  · exact heq.symm.trans h
  · rw [heq] at h; cases h

theorem storeByte_andThen_eq_fault {a : Nat} {b : Byte} {g : State → Result State}
    (h : andThen (storeByte s a b) g = .fault f) : OutOfMemoryAt s.pc f ∨ g (s.writeMem a b) = .fault f := by
  obtain ha | ha := Nat.lt_or_ge a Config.memSize
  · rw [storeByte_next ha] at h
    exact .inr h
  · rw [storeByte_fault ha] at h
    cases h
    exact .inl ⟨a, ha, rfl⟩

theorem loadByte_andThen_eq_fault {a : Nat} {g : Byte → Result State}
    (h : andThen (loadByte s a) g = .fault f) : OutOfMemoryAt s.pc f ∨ g (s.readMem a) = .fault f := by
  obtain ha | ha := Nat.lt_or_ge a Config.memSize
  · rw [loadByte_next ha] at h
    exact .inr h
  · rw [loadByte_fault ha] at h
    cases h
    exact .inl ⟨a, ha, rfl⟩

theorem storeRegs_eq_fault {count i : Nat} (h : storeRegs count i s = .fault f) : OutOfMemoryAt s.pc f := by
  induction count generalizing i s with
  | zero => cases h
  | succ count ih =>
    obtain hout | hrest := storeByte_andThen_eq_fault h
    · exact hout
    · have hout := ih hrest
      rwa [State.writeMem_pc] at hout

theorem loadRegs_eq_fault {count i : Nat} (h : loadRegs count i s = .fault f) : OutOfMemoryAt s.pc f := by
  induction count generalizing i s with
  | zero => cases h
  | succ count ih =>
    obtain hout | hrest := loadByte_andThen_eq_fault h
    · exact hout
    · have hout := ih hrest
      rwa [State.setV_pc] at hout

theorem drawRows_eq_fault {X Y : Byte} {count r : Nat} (h : drawRows X Y count r s = .fault f) :
    OutOfMemoryAt s.pc f := by
  induction count generalizing r s with
  | zero => cases h
  | succ count ih =>
    obtain hout | hrest := loadByte_andThen_eq_fault h
    · exact hout
    · exact (drawRow_frame X Y s r _).pc ▸ ih hrest

theorem keyState_andThen_skipIf_eq_fault {k : Byte} {c : Bool → Bool}
    (h : andThen (keyState s k) (fun pressed => skipIf (c pressed) s) = .fault f) :
    15 < k.toNat ∧ f = .keyIndexOutOfRange s.pc k := by
  obtain hk | hk := Nat.lt_or_ge k.toNat 16
  · rw [keyState_next (k := ⟨k.toNat, hk⟩) rfl] at h
    cases h
  · rw [keyState_fault hk] at h
    cases h
    exact ⟨hk, rfl⟩

/-- A fault of `exec` has the cause of its instruction. -/
theorem exec_fault_cases {i : Instr} (h : exec i s = .fault f) : FaultCause i s f := by
  cases i
  case ret =>
    by_cases hsp : s.sp = 0
    · rw [exec_ret_fault hsp] at h
      cases h
      exact ⟨hsp, rfl⟩
    · rw [exec_ret hsp] at h
      cases h
  case call nnn =>
    by_cases hsp : s.sp = 15
    · rw [exec_call_fault hsp] at h
      cases h
      exact ⟨hsp, rfl⟩
    · rw [exec_call hsp] at h
      cases h
  case addIVx x =>
    by_cases hover : 0xFFFF < s.i.toNat + (s.readV x).toNat ∧ s.params.iOverflow = .fault
    · obtain ⟨hsum, hparam⟩ := hover
      rw [exec_addIVx_fault hsum hparam] at h
      cases h
      exact ⟨hsum, hparam, rfl⟩
    · cases (if_neg hover).symm.trans h
  case skp | sknp => exact keyState_andThen_skipIf_eq_fault h
  case drw => exact drawRows_eq_fault (s := s.setFlag 0) (andThen_complete_eq_fault (unlessAliasRefused_eq_fault h))
  case ldBVx x =>
    obtain hout | h := storeByte_andThen_eq_fault h
    · exact hout
    obtain hout | h := storeByte_andThen_eq_fault h
    · exact hout
    obtain hout | h := storeByte_andThen_eq_fault h
    · exact hout
    · cases h
  case ldMemVx => exact storeRegs_eq_fault (andThen_complete_eq_fault h)
  case ldVxMem => exact loadRegs_eq_fault (andThen_complete_eq_fault h)
  case subVxVy | shrVxVy | subnVxVy | shlVxVy => cases unlessAliasRefused_eq_fault h
  case ldVxK =>
    rw [exec, execLdVxK] at h
    split at h
    · cases h
    · split at h <;> cases h
  all_goals cases h

end

/-- Settles O19: each cause of a fault is a row of the table. -/
theorem faultsOnlyAsTabled : Obligations.FaultsOnlyAsTabled := by
  unfold Obligations.FaultsOnlyAsTabled
  intro i s f h
  have hcause := exec_fault_cases h
  cases i
  case ret =>
    obtain ⟨hsp, rfl⟩ := hcause
    exact ⟨rfl, rfl, hsp⟩
  case call nnn =>
    obtain ⟨hsp, rfl⟩ := hcause
    exact ⟨rfl, ⟨nnn, rfl⟩, hsp⟩
  case drw | ldBVx | ldMemVx | ldVxMem =>
    obtain ⟨a, ha, rfl⟩ := hcause
    exact ⟨rfl, ha, by simp⟩
  case skp x | sknp x =>
    obtain ⟨hkey, rfl⟩ := hcause
    exact ⟨rfl, hkey, x, by simp⟩
  case addIVx x =>
    obtain ⟨hsum, hparam, rfl⟩ := hcause
    exact ⟨rfl, hsum, hparam, x, rfl, rfl⟩
  all_goals cases hcause

/-! ### Load failures (R102) -/

theorem loadImage_too_large {image : List Byte} (h : Config.memSize < Config.programStart + image.length) (s : State) :
    loadImage image s = .error (.imageTooLarge image.length) :=
  if_pos h

/-- Settles O22: boot hands an image to `loadImage`, which checks its size, and has none to hand on where the image
was not read. -/
theorem unfitImageFailsToLoad : Obligations.UnfitImageFailsToLoad := by
  unfold Obligations.UnfitImageFailsToLoad
  exact ⟨fun l _ h => loadImage_too_large h l.state, fun _ => rfl, fun _ => rfl, rfl⟩

end Sys2Proof.Machine

namespace Sys2Proof.Machine

/-! ### Block writes of boot (R120)

Boot writes the font and then the image, each as a block of bytes at ascending addresses. A block write leaves every
address outside the block as it was, and holds the bytes verbatim inside it. -/

section
variable {m : Memory} {a : Nat} {vs : List Byte}

theorem Memory.read_writeList_outside (hm : m.wf = true) (hfit : a + vs.length ≤ Config.memSize) {c : Nat}
    (hc : c < a ∨ a + vs.length ≤ c) : (m.writeList a vs).read c = m.read c := by
  induction vs generalizing m a with
  | nil => rfl
  | cons v vs ih =>
    rw [List.length_cons] at hfit hc
    rw [Memory.writeList, ih (Memory.wf_write hm (by omega) v) (by omega) (by omega), Memory.read_write hm,
      if_neg (by omega)]

theorem Memory.read_writeList_inside (hm : m.wf = true) (hfit : a + vs.length ≤ Config.memSize) {k : Nat}
    (hk : k < vs.length) : (m.writeList a vs).read (a + k) = vs[k] := by
  induction vs generalizing m a k with
  | nil => cases hk
  | cons v vs ih =>
    rw [List.length_cons] at hfit
    have hw : (m.write a v).wf = true := Memory.wf_write hm (by omega) v
    have hfit' : a + 1 + vs.length ≤ Config.memSize := by omega
    cases k with
    | zero =>
      calc (Memory.writeList (m.write a v) (a + 1) vs).read a
        _ = (m.write a v).read a := Memory.read_writeList_outside hw hfit' (.inl a.lt_add_one)
        _ = v := (Memory.read_write hm a v a).trans (if_pos rfl)
    | succ k =>
      rw [List.getElem_cons_succ, Nat.add_comm k 1, ← Nat.add_assoc]
      exact ih hw hfit' (Nat.lt_of_succ_lt_succ hk)

end

/-! ### Boot (R116, R117, R120) -/

/-- The state a session starts in: the image written over the launch state. -/
def Launch.loaded (l : Launch) (image : List Byte) : State :=
  { l.state with mem := l.state.mem.writeList Config.programStart image }

theorem boot_of_fits (l : Launch) {image : List Byte} (h : Config.programStart + image.length ≤ Config.memSize) :
    boot l (some image) = .ok (l.loaded image) :=
  if_neg (Nat.not_lt.mpr h)

section
variable {l : Launch} {image : List Byte}

theorem Launch.font_fits (l : Launch) : 0 + l.font.toList.length ≤ Config.memSize := by
  rw [Vector.length_toList]; decide

theorem Launch.wf_state (hm : l.mem.wf = true) : l.state.mem.wf = true :=
  Memory.wf_writeList hm _ l.font_fits

theorem Launch.readMem_state_font (hm : l.mem.wf = true) {k : Nat} (hk : k < 80) : l.state.readMem k = l.font[k] := by
  have h := Memory.read_writeList_inside hm l.font_fits (k := k) (by rwa [Vector.length_toList])
  rwa [Nat.zero_add, Vector.getElem_toList] at h

theorem Launch.readMem_state_above_font (hm : l.mem.wf = true) {a : Nat} (ha : 80 ≤ a) :
    l.state.readMem a = l.mem.read a :=
  Memory.read_writeList_outside hm l.font_fits (.inr (by rwa [Vector.length_toList, Nat.zero_add]))

theorem Launch.readMem_loaded_outside (hm : l.mem.wf = true)
    (hfit : Config.programStart + image.length ≤ Config.memSize) {a : Nat}
    (ha : a < Config.programStart ∨ Config.programStart + image.length ≤ a) :
    (l.loaded image).readMem a = l.state.readMem a :=
  Memory.read_writeList_outside (Launch.wf_state hm) hfit ha

theorem Launch.readMem_loaded_image (hm : l.mem.wf = true)
    (hfit : Config.programStart + image.length ≤ Config.memSize) {k : Nat} (hk : k < image.length) :
    (l.loaded image).readMem (Config.programStart + k) = image[k] :=
  Memory.read_writeList_inside (Launch.wf_state hm) hfit hk

end

/-- Settles O21: the image begins above the font, so the font, the image and the rest of memory are read off the two
block writes apart; no other element is touched after the launch state. -/
theorem bootGivesTheLaunchState : Obligations.BootGivesTheLaunchState := by
  unfold Obligations.BootGivesTheLaunchState
  intro l image hm hfit
  refine ⟨l.loaded image, boot_of_fits l hfit, rfl, rfl, rfl, rfl, fun k hk => ?font, fun k hk => ?image,
    fun a hlo ha => ?rest, rfl, rfl, rfl, rfl, rfl, rfl, rfl, rfl⟩
  case font =>
    have hbelow : k < Config.programStart := hk.trans (by decide)
    rw [Launch.readMem_loaded_outside hm hfit (.inl hbelow), Launch.readMem_state_font hm hk]
  case image => exact Launch.readMem_loaded_image hm hfit hk
  case rest => rw [Launch.readMem_loaded_outside hm hfit ha, Launch.readMem_state_above_font hm hlo]

/-! ### The state after reset (R116, R118) -/

/-- The default font is what unlisted memory reads as, so memory that holds it reads like the empty memory. -/
theorem Launch.clean_state_mem : Launch.clean.state.mem = [] := by
  have hm : Launch.clean.mem.wf = true := rfl
  refine Memory.eq_of_read_eq (Launch.wf_state hm) Memory.wf_reset fun a => ?_
  obtain ha | ha := Nat.lt_or_ge a 80
  · exact (Launch.readMem_state_font hm ha).trans (Vector.getElem_ofFn ha)
  · exact Launch.readMem_state_above_font hm ha

theorem Launch.clean_state : Launch.clean.state = State.reset :=
  congrArg (fun m => { State.reset with mem := m }) Launch.clean_state_mem

/-- No stack slot is live. -/
theorem State.inv_reset : State.reset.Inv where
  mem := Memory.wf_reset
  pc := by decide
  stack k hk hlive := absurd (BitVec.eq_of_toNat_eq (Nat.le_zero.mp hlive)) hk

theorem State.waitsAtKeyWord_of_idle {s : State} (h : s.wait = .idle) : s.WaitsAtKeyWord :=
  fun hw => nomatch h.symm.trans hw

/-- Settles O23: an empty image leaves the clean launch state as it is, and reset is idle with an empty stack. -/
theorem resetIsCleanLaunchAndMeetsInvariants : Obligations.ResetIsCleanLaunchAndMeetsInvariants := by
  unfold Obligations.ResetIsCleanLaunchAndMeetsInvariants
  have hboot : boot Launch.clean (some []) = .ok Launch.clean.state := boot_of_fits _ (by decide)
  exact ⟨Launch.clean_state ▸ hboot, State.inv_reset, State.waitsAtKeyWord_of_idle rfl⟩

end Sys2Proof.Machine
